-- ==== Sys2Proof/Word.lean ====
section
/-! DEFINITION. The word types of B32OTP (00_scope.md R6: a byte is 8 bits; every value is an unsigned natural). -/

namespace Sys2Proof

/-- One element of IBUF, OBUF or ALPHABET, and one 8-bit register. -/
abbrev Byte := BitVec 8

/-- One 32-bit register (DBC, VALUE, CFG) and the widest value a host read returns. -/
abbrev Word32 := BitVec 32

end Sys2Proof
end

