-- ==== Sys2Proof/Syntax.lean ====
section
/-! DEFINITION. The six commands of B32OTP, one constructor per row of spec/opcode_table.json (30_encoding.md R61). -/

namespace Sys2Proof

/-- A command. No command carries an operand (R64); `p` is the padding flag P of R62, which only two commands have. -/
inductive Instr where
  /-- Clear the instance (R138). -/
  | clr
  /-- Base32 decode (R80). -/
  | b32dec
  /-- Canonical Base32 encode (R100); `p`: pad with `=` to a multiple of 8 characters. -/
  | b32enc (p : Bool)
  /-- Byte-to-alphabet projection (R110). -/
  | b32proj
  /-- Read the alphabet table (R115); `p`: append the padding character. -/
  | b32lut (p : Bool)
  /-- Dynamic truncation and six-digit format (R120). -/
  | truncfmt
deriving DecidableEq, Repr

end Sys2Proof
end

