-- ==== Sys2Proof/Decode.lean ====
section
/-! DEFINITION. The command word (30_encoding.md R60 to R63): its fields, a total decoder that rejects by name, and the
encoder. -/

namespace Sys2Proof

/-- Why a command word is illegal (R63). The block answers all three with ILLEGAL_CMD (60_exceptions.md R163). -/
inductive DecodeError where
  /-- The RSV field, bits 7:4, is not zero. -/
  | reservedBits
  /-- OP is 6 or 7. -/
  | reservedOp
  /-- P is 1 on a command that has no P meaning. -/
  | paddingNotAllowed
deriving DecidableEq, Repr

/-- OP, bits 2:0 (R60). -/
def opField (w : BitVec 8) : BitVec 3 := w.extractLsb' 0 3

/-- P, bit 3 (R60). -/
def padField (w : BitVec 8) : Bool := w.getLsbD 3

/-- RSV, bits 7:4 (R60). -/
def rsvField (w : BitVec 8) : BitVec 4 := w.extractLsb' 4 4

/-- A command that has no P meaning is legal with P = 0 only (R62). -/
def withoutPad (p : Bool) (i : Instr) : Except DecodeError Instr :=
  if p then .error .paddingNotAllowed else .ok i

/-- The command named by OP and P (R61, R62). -/
def decodeOp (op : Nat) (p : Bool) : Except DecodeError Instr :=
  match op with
  | 0 => withoutPad p .clr
  | 1 => withoutPad p .b32dec
  | 2 => .ok (.b32enc p)
  | 3 => withoutPad p .b32proj
  | 4 => .ok (.b32lut p)
  | 5 => withoutPad p .truncfmt
  | _ => .error .reservedOp

/-- The decoder, total on the 256 command words (R63). -/
def decode (w : BitVec 8) : Except DecodeError Instr :=
  if rsvField w = 0#4 then decodeOp (opField w).toNat (padField w) else .error .reservedBits

/-- The number of a command in OP (R61). -/
def opNumber : Instr → BitVec 3
  | .clr => 0#3
  | .b32dec => 1#3
  | .b32enc _ => 2#3
  | .b32proj => 3#3
  | .b32lut _ => 4#3
  | .truncfmt => 5#3

/-- The P flag of a command, 0 where it has none (R62). -/
def padFlag : Instr → Bool
  | .b32enc p => p
  | .b32lut p => p
  | .clr => false
  | .b32dec => false
  | .b32proj => false
  | .truncfmt => false

/-- The word of a command: RSV, P, OP from bit 7 down (R60). -/
def encode (i : Instr) : BitVec 8 := 0#4 ++ BitVec.ofBool (padFlag i) ++ opNumber i

/-- The command this decoder reads from a table word: the low `nbits` bits of `w`, of which CMD takes bits 7:0
(20_memory.md R44). -/
def decodeTableWord (nbits w : Nat) : Option Instr :=
  match decode (BitVec.ofNat 8 (w % 2 ^ nbits)) with
  | .ok i => some i
  | .error _ => none

end Sys2Proof
end

