-- ==== Sys2Proof/Config.lean ====
section
/-! DEFINITION. The fixed parameters of the instance (00_scope.md R5) and the opaque functions of its environment
(45_environment_totp_engine.md). An opaque constant has no body: nothing can be proved of its values. -/

namespace Sys2Proof.Config

/-- IBUF_CAP of R5 (decision D4); log 5. -/
def ibufCap : Nat := 128

/-- OBUF_CAP of R5 (decision D4); log 5. -/
def obufCap : Nat := 128

/-- DIGITS of R5: the length of the Code. -/
def digits : Nat := 6

/-- DIGEST_LEN of R5: the length of an HMAC-SHA1 digest. -/
def digestLen : Nat := 20

/-- OFFSET_MASK of R5. -/
def offsetMask : Byte := 0x0F#8

/-- DBC_MASK of R5. -/
def dbcMask : Word32 := 0x7FFFFFFF#32

/-- MODULUS of R5, ten to the power DIGITS. -/
def modulus : Nat := 1000000

/-- PROJ_MASK of R5. -/
def projMask : Byte := 0x1F#8

/-- The width of a time step in seconds (R142): a constant of the environment, not of the block. -/
def timeStepSeconds : Nat := 30

/-- The shortest and the longest secret in Base32 characters (R141, R147): the environment's bounds. -/
def secretMin : Nat := 16

@[inherit_doc secretMin] def secretMax : Nat := 128

/-- The length of a secret where createSecret is called without one (R147). -/
def secretDefault : Nat := 16

/-- The drift window where verifyCode is called without one (R149). -/
def discrepancyDefault : Nat := 1

/-- HMAC_SHA1 of R144: key bytes and message bytes to a 20-byte digest, a function and nothing more (U6; log 11). -/
opaque hmacSha1 : List Byte → List Byte → Vector Byte 20

/-- How the URI formatter writes the label: not in the source (R152, N15; log 15). -/
opaque uriLabel : List Byte → List Byte

/-- The URI formatter's URL-safe handling of the issuer: named and not defined (R152, N15; log 15). -/
opaque uriIssuer : List Byte → List Byte

end Sys2Proof.Config
end

