-- ==== Sys2Proof/Machine/State.lean ====
section
/-! DEFINITION. The architectural state of one B32OTP instance (10_state.md R10), the host accesses waiting at its port,
its failure causes, and the reset state (R27). -/

namespace Sys2Proof.Machine

/-- The contents of a buffer: (index, byte) pairs, indices strictly rising, no byte 0x00; an index that is not listed
reads 0x00, the reset value of R27 (log 9). -/
abbrev Memory := List Host.Cell

/-- One event at the port (20_memory.md R41): a host access, or the platform's reset (70_reset_and_hazards.md R180).
A written register value is a natural number: the bus may carry more bits than the register has (R44; log 10). -/
inductive PortEvent where
  /-- `HostWrite(IBUF, i, b)`. -/
  | writeIbuf (i : Nat) (b : Byte)
  /-- `HostRead(IBUF, i)`. -/
  | readIbuf (i : Nat)
  /-- A host write to the read-only OBUF (R44). -/
  | writeObuf (i : Nat) (b : Byte)
  /-- `HostRead(OBUF, i)`. -/
  | readObuf (i : Nat)
  /-- `HostWrite(REG, n, v)`; n = 0x00 is CMD and starts a command. -/
  | writeReg (n : BitVec 8) (v : Nat)
  /-- `HostRead(REG, n)`. -/
  | readReg (n : BitVec 8)
  /-- The platform applies reset. -/
  | reset
deriving DecidableEq, Repr

/-- The failure causes of 60_exceptions.md R160: each is a defined completion of a command, not a stop of the model. -/
inductive Failure where
  /-- No data symbol, or a data byte outside the alphabet (R161). -/
  | invalidEncoding
  /-- The input length cannot be served (R162). -/
  | badLength
  /-- The word written to CMD is not legal (R163). -/
  | illegalCmd
deriving DecidableEq, Repr

/-- Everything R10 gives the machine, and two fields of the model's own, `pending` and `replies`. -/
structure State where
  /-- IBUF, the input byte buffer (R11). -/
  ibuf : Memory
  /-- ILEN, the input length register (R12). -/
  ilen : BitVec 8
  /-- OBUF, the output byte buffer (R13). -/
  obuf : Memory
  /-- OLEN, the output length register (R14). -/
  olen : BitVec 8
  /-- STATUS: DONE bit 0, FAIL bit 1, ERR bits 3:2 (R15). -/
  status : BitVec 8
  /-- OFFSET (R16). -/
  offset : BitVec 8
  /-- DBC (R17). -/
  dbc : Word32
  /-- VALUE (R18). -/
  value : Word32
  /-- The model's own: the events not yet performed, oldest first, in port order (R51; log 1). -/
  pending : List PortEvent
  /-- The model's own: what host reads have returned, oldest first (R41; log 3). -/
  replies : List Word32
deriving DecidableEq, Repr

/-- What stops the model. -/
inductive Fault where
  /-- Raised by the port for a host access to an IBUF index at or above IBUF_CAP, which does not exist at the
  architectural level (R45; log 4). Safe: the model stops where a platform does what it likes. -/
  | noIbufElement (index : Nat)
  /-- Raised by the port for a host access to an OBUF index at or above OBUF_CAP (R45; log 4). Safe, for the same
  reason. -/
  | noObufElement (index : Nat)
deriving DecidableEq, Repr

/-- What the model gives no meaning. -/
inductive Refusal where
  /-- Raised by an arm of `exec` whose instruction has no meaning yet; no arm is left that does. Safe. -/
  | notModelled (mnemonic : String)
deriving DecidableEq, Repr

/-- The state right after reset (R27): every value is the spec's, but for the empty `pending` and `replies`, which are
the model's (log 1, log 3). -/
def State.reset : State where
  ibuf := []
  ilen := 0x00#8
  obuf := []
  olen := 0x00#8
  status := 0x00#8
  offset := 0x00#8
  dbc := 0#32
  value := 0#32
  pending := []
  replies := []

end Sys2Proof.Machine
end

