-- ==== Sys2Proof/Machine/Flags.lean ====
section
/-! DEFINITION. The STATUS register (10_state.md R15): the values a completion writes and the fields the host reads. -/

namespace Sys2Proof.Machine

/-- ERR of a failure (60_exceptions.md R160). -/
def failureCode : Failure → BitVec 2
  | .invalidEncoding => 1#2
  | .badLength => 2#2
  | .illegalCmd => 3#2

/-- STATUS after a success: DONE = 1, FAIL = 0, ERR = OK (R137). -/
def successStatus : BitVec 8 := 0x01#8

/-- STATUS after a failure with code e: 0x03 | (e << 2) (R165). -/
def failureStatus (f : Failure) : BitVec 8 := 0x03#8 ||| ((failureCode f).setWidth 8 <<< 2)

/-- DONE, bit 0. -/
def State.done (s : State) : Bool := s.status.getLsbD 0

/-- FAIL, bit 1. -/
def State.failed (s : State) : Bool := s.status.getLsbD 1

/-- ERR, bits 3:2. -/
def State.err (s : State) : BitVec 2 := s.status.extractLsb' 2 2

end Sys2Proof.Machine
end

