-- ==== Sys2Proof/Machine/Ops.lean ====
section
/-! DEFINITION. The named operations over the buffers and registers: element reads and writes, whole-buffer writes, and
the ways a command completes (43_control.md R137, R138; 60_exceptions.md R165). -/

namespace Sys2Proof.Machine

/-- The byte at an index; an unlisted index reads 0x00 (R27; log 9). -/
def Memory.read : Memory → Nat → Byte
  | [], _ => 0x00#8
  | (b, u) :: m, a => if a = b then u else Memory.read m a

/-- The cell list that puts a byte at an index before the cells of `m`: no cell for 0x00. -/
def Memory.cons (a : Nat) (v : Byte) (m : Memory) : Memory :=
  if v = 0x00#8 then m else (a, v) :: m

/-- Write one element, keeping the canonical form. -/
def Memory.write : Memory → Nat → Byte → Memory
  | [], a, v => Memory.cons a v []
  | (b, u) :: m, a, v =>
    if a < b then Memory.cons a v ((b, u) :: m)
    else if a = b then Memory.cons a v m
    else (b, u) :: Memory.write m a v

/-- The buffer that holds `bytes` from index `a` up and 0x00 at every other index. -/
def Memory.ofBytesFrom : Nat → List Byte → Memory
  | _, [] => []
  | a, v :: bytes => Memory.cons a v (Memory.ofBytesFrom (a + 1) bytes)

/-- The buffer that holds `bytes` from index 0 up and 0x00 at every other index (R46, R137). -/
def Memory.ofBytes (bytes : List Byte) : Memory := Memory.ofBytesFrom 0 bytes

/-- The elements `m[a], …, m[a+n-1]`, in index order (R46). -/
def Memory.bytesFrom (m : Memory) : Nat → Nat → List Byte
  | _, 0 => []
  | a, n + 1 => Memory.read m a :: Memory.bytesFrom m (a + 1) n

/-- The canonical form: every index at or above `low` and below `cap`, indices strictly rising, no byte 0x00. -/
def Memory.wfFrom (cap : Nat) : Nat → Memory → Bool
  | _, [] => true
  | low, (a, v) :: m =>
    decide (low ≤ a) && decide (a < cap) && decide (v ≠ 0x00#8) && Memory.wfFrom cap (a + 1) m

/-- The canonical form of a buffer of `cap` elements. -/
def Memory.wf (cap : Nat) (m : Memory) : Bool := Memory.wfFrom cap 0 m

/-- What a command that succeeds writes: the result string and the three result registers (R137). -/
structure Result where
  /-- The result string, OBUF[0..OLEN-1]. -/
  bytes : List Byte
  /-- OFFSET, DBC and VALUE: 0 for every command but TRUNCFMT (R137, R128). -/
  offset : BitVec 8 := 0x00#8
  dbc : Word32 := 0#32
  value : Word32 := 0#32
deriving DecidableEq, Repr

/-- Successful completion (R137): all of OBUF, OLEN, STATUS and the result registers together; IBUF and ILEN are not
written. -/
def succeed (r : Result) (s : State) : State :=
  { s with
    obuf := Memory.ofBytes r.bytes
    olen := BitVec.ofNat 8 r.bytes.length
    status := successStatus
    offset := r.offset
    dbc := r.dbc
    value := r.value }

/-- Failed completion (R165): all of OBUF, OLEN and the result registers zero, the cause in STATUS; IBUF and ILEN are
not written. The block has no trap entry and no return: this is all a failure does (R167, R168). -/
def fail (f : Failure) (s : State) : State :=
  { s with
    obuf := []
    olen := 0x00#8
    status := failureStatus f
    offset := 0x00#8
    dbc := 0#32
    value := 0#32 }

/-- A command produces a result or raises a failure, and completes as the one or the other (R136). -/
def finish (outcome : Except Failure Result) (s : State) : State :=
  match outcome with
  | .ok r => succeed r s
  | .error f => fail f s

/-- Every piece of the spec's state to its reset value (R27, R138, R180); the port's events and the values already
returned to the host are not the block's. -/
def clearBlock (s : State) : State :=
  { s with
    ibuf := []
    ilen := 0x00#8
    obuf := []
    olen := 0x00#8
    status := 0x00#8
    offset := 0x00#8
    dbc := 0#32
    value := 0#32 }

/-- `IBUF[i] <- b` (20_memory.md R41). -/
def storeIbuf (i : Nat) (b : Byte) (s : State) : State := { s with ibuf := Memory.write s.ibuf i b }

/-- `ILEN <- n` (20_memory.md R41). -/
def setIlen (n : BitVec 8) (s : State) : State := { s with ilen := n }

/-- The port returns a value to the host (20_memory.md R41); nothing of the block changes (R43; log 3). -/
def reply (v : Word32) (s : State) : State := { s with replies := s.replies ++ [v] }

/-- The events that are left once the oldest is taken (20_memory.md R51; log 1). -/
def setPending (events : List PortEvent) (s : State) : State := { s with pending := events }

end Sys2Proof.Machine
end

