-- ==== Sys2Proof/Machine/Operands.lean ====
section
/-! DEFINITION. The implicit operands of the commands (30_encoding.md R64) and the primitives of 00_scope.md R7: the
alphabet and its inverse, the padding character, the decimal digits, big-endian assembly, and the constant CFG. -/

namespace Sys2Proof.Machine

/-- ALPHABET, index to character (30_encoding.md R65). -/
def alphabet : List Byte :=
  [0x41#8, 0x42#8, 0x43#8, 0x44#8, 0x45#8, 0x46#8, 0x47#8, 0x48#8,
   0x49#8, 0x4A#8, 0x4B#8, 0x4C#8, 0x4D#8, 0x4E#8, 0x4F#8, 0x50#8,
   0x51#8, 0x52#8, 0x53#8, 0x54#8, 0x55#8, 0x56#8, 0x57#8, 0x58#8,
   0x59#8, 0x5A#8, 0x32#8, 0x33#8, 0x34#8, 0x35#8, 0x36#8, 0x37#8]

/-- PADCHAR (30_encoding.md R66). -/
def padChar : Byte := 0x3D#8

/-- ALPHA(v), the byte ALPHABET[v] (R7); a 5-bit index is always one of the table's. -/
def alpha (v : BitVec 5) : Byte := alphabet.getD v.toNat padChar

/-- VAL(c), which is defined only on the alphabet's bytes (30_encoding.md R67). -/
def symbolValue (c : Byte) : Option (BitVec 5) :=
  if 0x41 ≤ c.toNat ∧ c.toNat ≤ 0x5A then some (BitVec.ofNat 5 (c.toNat - 0x41))
  else if 0x32 ≤ c.toNat ∧ c.toNat ≤ 0x37 then some (BitVec.ofNat 5 (c.toNat - 0x32 + 26))
  else none

/-- IS_ALPHA(c) (R67). -/
def isAlpha (c : Byte) : Bool := (symbolValue c).isSome

/-- DIGIT(d), for d from 0 to 9 (30_encoding.md R68). -/
def digitChar (d : Nat) : Byte := BitVec.ofNat 8 (0x30 + d)

/-- BE32(b0, b1, b2, b3) (20_memory.md R48): b0 is the most significant byte. -/
def be32 (b0 b1 b2 b3 : Byte) : Word32 := b0 ++ b1 ++ b2 ++ b3

/-- CFG (10_state.md R19): OBUF_CAP, IBUF_CAP, DIGEST_LEN, DIGITS from bit 31 down. -/
def cfgWord : Word32 :=
  BitVec.ofNat 8 Config.obufCap ++ BitVec.ofNat 8 Config.ibufCap ++ BitVec.ofNat 8 Config.digestLen
    ++ BitVec.ofNat 8 Config.digits

/-- The input string IBUF[0], …, IBUF[ILEN-1] (R11, R55). -/
def inputString (s : State) : List Byte := Memory.bytesFrom s.ibuf 0 s.ilen.toNat

/-- The input string of a command that reads one: ILEN above IBUF_CAP raises BAD_LENGTH (R12, R162). -/
def inputOperand (s : State) : Except Failure (List Byte) :=
  if Config.ibufCap < s.ilen.toNat then .error .badLength else .ok (inputString s)

/-- The result string OBUF[0], …, OBUF[OLEN-1], as the host reads it (R13). -/
def outputString (s : State) : List Byte := Memory.bytesFrom s.obuf 0 s.olen.toNat

end Sys2Proof.Machine
end

