-- ==== Sys2Proof/Machine/Base32.lean ====
section
/-! DEFINITION. The Base32 commands B32DEC (40_base32_decode.md), B32ENC, B32PROJ and B32LUT (41_base32_encode.md). -/

namespace Sys2Proof.Machine

/-- The group mappers' working registers ACC (12 bits) and NBITS, and the bytes emitted so far (10_state.md R21). They
are zero at the start of every command and carry nothing to the next (log 7). -/
structure Mapper where
  acc : BitVec 12 := 0#12
  nbits : Nat := 0
  out : List Byte := []
deriving DecidableEq, Repr

/-- One step of the 5-to-8 mapper (R83): shift in a symbol's value, emit the oldest 8 bits when there are 8. -/
def shiftSymbol (m : Mapper) (v : BitVec 5) : Mapper :=
  let acc := (m.acc <<< 5) ||| v.setWidth 12
  let nbits := m.nbits + 5
  if 8 ≤ nbits then
    { acc := acc, nbits := nbits - 8, out := m.out ++ [(acc >>> (nbits - 8)).setWidth 8] }
  else { acc := acc, nbits := nbits, out := m.out }

/-- The bytes of a sequence of 5-bit groups; the bits left at the end are dropped unexamined (R83, R86). -/
def groupsToBytes (groups : List (BitVec 5)) : List Byte := (groups.foldl shiftSymbol {}).out

/-- Emit the oldest 5 bits as a symbol if there are 5 (R101). -/
def emitSymbol (m : Mapper) : Mapper :=
  if 5 ≤ m.nbits then
    { m with nbits := m.nbits - 5, out := m.out ++ [alpha ((m.acc >>> (m.nbits - 5)).setWidth 5)] }
  else m

/-- One step of the 8-to-5 mapper: shift in a byte; it causes one or two emissions (R101). -/
def shiftByte (m : Mapper) (b : Byte) : Mapper :=
  emitSymbol (emitSymbol { m with acc := (m.acc <<< 8) ||| b.setWidth 12, nbits := m.nbits + 8 })

/-- The final partial group, its low bits zero (R102). -/
def emitPartial (m : Mapper) : Mapper :=
  if 0 < m.nbits then
    { m with nbits := 0, out := m.out ++ [alpha ((m.acc <<< (5 - m.nbits)).setWidth 5)] }
  else m

/-- The unpadded symbols of a byte string (R101, R102). -/
def bytesToSymbols (bytes : List Byte) : List Byte := (emitPartial (bytes.foldl shiftByte {})).out

/-- Append PADCHAR until the length is a multiple of 8; none if it already is (R103). -/
def padToBlock (text : List Byte) : List Byte :=
  text ++ List.replicate ((8 - text.length % 8) % 8) padChar

/-- The length p of the pad run, the longest suffix of PADCHAR bytes (R81). -/
def padRun (text : List Byte) : Nat := (text.reverse.takeWhile (· == padChar)).length

/-- The data bytes: the input without its pad run (R81). -/
def dataSymbols (text : List Byte) : List Byte := text.take (text.length - padRun text)

/-- The values of the data bytes, if every one of them is in the alphabet (R82). -/
def symbolValues : List Byte → Option (List (BitVec 5))
  | [] => some []
  | c :: cs =>
    match symbolValue c, symbolValues cs with
    | some v, some vs => some (v :: vs)
    | _, _ => none

/-- B32DEC on an input string (R80). -/
def decodeText (text : List Byte) : Except Failure Result :=
  let data := dataSymbols text
  if Config.obufCap < 5 * data.length / 8 then .error .badLength
  else if data.length = 0 then .error .invalidEncoding
  else
    match symbolValues data with
    | some groups => .ok { bytes := groupsToBytes groups }
    | none => .error .invalidEncoding

/-- The result length of B32ENC: ceil(8n/5), with P rounded up to a multiple of 8 (R100, R104). -/
def encodedLength (p : Bool) (n : Nat) : Nat :=
  let l := (8 * n + 4) / 5
  if p then 8 * ((l + 7) / 8) else l

/-- B32ENC on an input string (R100). -/
def encodeBytes (p : Bool) (bytes : List Byte) : Except Failure Result :=
  if Config.obufCap < encodedLength p bytes.length then .error .badLength
  else .ok { bytes := if p then padToBlock (bytesToSymbols bytes) else bytesToSymbols bytes }

/-- The character of one byte: ALPHABET[b & 31] (R110). -/
def projectByte (b : Byte) : Byte := alpha ((b &&& Config.projMask).setWidth 5)

/-- B32PROJ on an input string (R110). -/
def projectBytes (bytes : List Byte) : Except Failure Result :=
  if Config.obufCap < bytes.length then .error .badLength
  else .ok { bytes := bytes.map projectByte }

/-- B32LUT's result string (R115). -/
def lookupTable (p : Bool) : List Byte := if p then alphabet ++ [padChar] else alphabet

/-- B32DEC (R80). -/
def execB32dec (s : State) : Host.Outcome State Fault Refusal :=
  .next (finish ((inputOperand s).bind decodeText) s)

/-- B32ENC (R100). -/
def execB32enc (p : Bool) (s : State) : Host.Outcome State Fault Refusal :=
  .next (finish ((inputOperand s).bind (encodeBytes p)) s)

/-- B32PROJ (R110). -/
def execB32proj (s : State) : Host.Outcome State Fault Refusal :=
  .next (finish ((inputOperand s).bind projectBytes) s)

/-- B32LUT (R115): reads neither ILEN nor IBUF. -/
def execB32lut (p : Bool) (s : State) : Host.Outcome State Fault Refusal :=
  .next (finish (.ok { bytes := lookupTable p }) s)

end Sys2Proof.Machine
end

