-- ==== Sys2Proof/Machine/Control.lean ====
section
/-! DEFINITION. The control command CLR (43_control.md R138). -/

namespace Sys2Proof.Machine

/-- CLR (R138): the state after it is the reset state of R27; it reads nothing and cannot fail. -/
def execClr (s : State) : Host.Outcome State Fault Refusal := .next (clearBlock s)

end Sys2Proof.Machine
end

