-- ==== Sys2Proof/Machine/Truncate.lean ====
section
/-! DEFINITION. TRUNCFMT: dynamic truncation and the six-digit formatter (42_truncate_format.md). -/

namespace Sys2Proof.Machine

/-- Stage 1 (R122): the low nibble of the last digest byte. -/
def truncOffset (last : Byte) : BitVec 4 := (last &&& Config.offsetMask).setWidth 4

/-- Stage 2 (R123): the big-endian window at the offset. -/
def truncWindow (ibuf : Memory) (off : BitVec 4) : Word32 :=
  be32 (Memory.read ibuf off.toNat) (Memory.read ibuf (off.toNat + 1))
    (Memory.read ibuf (off.toNat + 2)) (Memory.read ibuf (off.toNat + 3))

/-- Stage 3 (R124): clear bit 31. -/
def maskSign (window : Word32) : Word32 := window &&& Config.dbcMask

/-- Stage 4 (R125): the remainder modulo 10^6. -/
def reduceCode (dbc : Word32) : Nat := dbc.toNat % Config.modulus

/-- Stage 5 (R126): six ASCII digits, most significant first, zeros on the left. -/
def codeDigits (value : Nat) : List Byte :=
  [digitChar (value / 100000 % 10), digitChar (value / 10000 % 10), digitChar (value / 1000 % 10),
   digitChar (value / 100 % 10), digitChar (value / 10 % 10), digitChar (value % 10)]

/-- The four stages on the digest in IBUF[0..19] (R120). -/
def truncate (ibuf : Memory) : Result :=
  let off := truncOffset (Memory.read ibuf (Config.digestLen - 1))
  let dbc := maskSign (truncWindow ibuf off)
  let value := reduceCode dbc
  { bytes := codeDigits value, offset := off.setWidth 8, dbc := dbc, value := BitVec.ofNat 32 value }

/-- The digest operand: ILEN must be 20 (R121). -/
def truncateDigest (s : State) : Except Failure Result :=
  if s.ilen.toNat = Config.digestLen then .ok (truncate s.ibuf) else .error .badLength

/-- TRUNCFMT (R120). -/
def execTruncfmt (s : State) : Host.Outcome State Fault Refusal := .next (finish (truncateDigest s) s)

end Sys2Proof.Machine
end

