-- ==== Sys2Proof/Machine/Dispatch.lean ====
section
/-! DEFINITION. One arm per command (43_control.md R136). -/

namespace Sys2Proof.Machine

/-- The command's own rule, performed on the state at the CMD write. -/
def exec (i : Instr) (s : State) : Host.Outcome State Fault Refusal :=
  match i with
  | .clr => Sys2Proof.Machine.execClr s
  | .b32dec => Sys2Proof.Machine.execB32dec s
  | .b32enc p => Sys2Proof.Machine.execB32enc p s
  | .b32proj => Sys2Proof.Machine.execB32proj s
  | .b32lut p => Sys2Proof.Machine.execB32lut p s
  | .truncfmt => Sys2Proof.Machine.execTruncfmt s

end Sys2Proof.Machine
end

