-- ==== Sys2Proof/Machine/Port.lean ====
section
/-! DEFINITION. The host port: the primitives of 20_memory.md R41, the start of a command (43_control.md R135, R136), the
platform's reset (70_reset_and_hazards.md R180), and the order of accesses (R51). -/

namespace Sys2Proof.Machine

/-- A CMD write: the word selects a command and it runs to completion; an illegal word completes with ILLEGAL_CMD
(R135, R136, R163). -/
def runCommand (w : BitVec 8) (s : State) : Host.Outcome State Fault Refusal :=
  match decode w with
  | .ok i => exec i s
  | .error _ => .next (fail .illegalCmd s)

/-- `HostRead(REG, n)` (R28, R41): CMD and the reserved numbers read 0 (R44, R45). Narrow registers are
zero-extended (log 3). -/
def readRegister (n : BitVec 8) (s : State) : Word32 :=
  match n.toNat with
  | 1 => s.status.setWidth 32
  | 2 => s.ilen.setWidth 32
  | 3 => s.olen.setWidth 32
  | 4 => s.offset.setWidth 32
  | 5 => s.dbc
  | 6 => s.value
  | 7 => cfgWord
  | _ => 0#32

/-- `HostWrite(REG, n, v)` (R41): CMD starts a command, ILEN is stored, both from bits 7:0; every other number ignores
the write (R44, R45). -/
def writeRegister (n : BitVec 8) (v : Nat) (s : State) : Host.Outcome State Fault Refusal :=
  match n.toNat with
  | 0 => runCommand (BitVec.ofNat 8 v) s
  | 2 => .next (setIlen (BitVec.ofNat 8 v) s)
  | _ => .next s

/-- One event at the port, complete before the next (R51). A buffer index that does not exist faults (R45; log 4). -/
def perform (e : PortEvent) (s : State) : Host.Outcome State Fault Refusal :=
  match e with
  | .writeIbuf i b =>
    if i < Config.ibufCap then .next (storeIbuf i b s) else .fault (.noIbufElement i)
  | .readIbuf i =>
    if i < Config.ibufCap then .next (reply ((Memory.read s.ibuf i).setWidth 32) s)
    else .fault (.noIbufElement i)
  | .writeObuf i _ => if i < Config.obufCap then .next s else .fault (.noObufElement i)
  | .readObuf i =>
    if i < Config.obufCap then .next (reply ((Memory.read s.obuf i).setWidth 32) s)
    else .fault (.noObufElement i)
  | .writeReg n v => writeRegister n v s
  | .readReg n => .next (reply (readRegister n s) s)
  | .reset => .next (clearBlock s)

/-- Perform the oldest pending event (R51); with none pending the block does nothing (R188; log 2). -/
def serveNext (s : State) : Host.Outcome State Fault Refusal :=
  match s.pending with
  | [] => .next s
  | e :: rest => perform e (setPending rest s)

/-- Put a CMD write of `w` where the next step takes its event: first in port order (log 1). -/
def placeCommand (s : State) (w : BitVec 8) : State :=
  setPending (.writeReg 0x00#8 w.toNat :: s.pending) s

end Sys2Proof.Machine
end

