-- ==== Sys2Proof/Machine/Environment.lean ====
section
/-! DEFINITION. The environment of the block (45_environment_totp_engine.md): the operations of TotpEngine as host scripts
over the port, around the opaque HMAC_SHA1. Nothing here is state or a command of the block (00_scope.md R4). -/

namespace Sys2Proof.Machine

/-- The failures of the environment (R146, R147, R148), and its two ways to have no outcome. -/
inductive EnvFailure where
  /-- The secret does not decode (R146). -/
  | invalidSecret
  /-- The requested secret length is outside [16, 128] (R147). -/
  | invalidParameter
  /-- No cryptographically secure random source (R148). -/
  | insecureRandomSource
  /-- A time step that is negative or has no 8-byte form: the source gives it no meaning (R143, U9; log 14). Safe. -/
  | noTimeStep
  /-- The port stopped on an access of the script; no script here makes such an access. Safe. -/
  | portStopped
deriving DecidableEq, Repr

/-- A host script: its events performed in order, from the first (20_memory.md R51). -/
def serve : List PortEvent → State → Host.Outcome State Fault Refusal
  | [], s => .next s
  | e :: events, s =>
    match perform e s with
    | .next t => serve events t
    | .fault r => .fault r
    | .refused r => .refused r

/-- `WR IBUF[i], b0`, `WR IBUF[i+1], b1`, … (30_encoding.md R70). -/
def writeScript : Nat → List Byte → List PortEvent
  | _, [] => []
  | i, b :: bytes => .writeIbuf i b :: writeScript (i + 1) bytes

/-- `LOAD` (30_encoding.md R70). For a string longer than IBUF the host writes the elements that exist and an ILEN above
IBUF_CAP, so that the command answers BAD_LENGTH (R146; log 13). -/
def loadScript (bytes : List Byte) : List PortEvent :=
  writeScript 0 (bytes.take Config.ibufCap) ++ [.writeReg 0x02#8 (min bytes.length 255)]

/-- `WR CMD, w` for the word of a command (30_encoding.md R70). -/
def commandScript (i : Instr) : List PortEvent := [.writeReg 0x00#8 (encode i).toNat]

/-- The time step of a clock reading (R142). -/
def timeStep (unixTime : Nat) : Nat := unixTime / Config.timeStepSeconds

/-- The counter as an 8-byte big-endian integer (R143). -/
def be64 (step : Nat) : List Byte := (List.range 8).map fun j => BitVec.ofNat 8 (step >>> (8 * (7 - j)))

/-- A host transaction that ends in CLR when it reads its result (R145, R147; 70_reset_and_hazards.md R184): load the
input, run the command, let `read` take the result. -/
def transact {α : Type} (bytes : List Byte) (i : Instr) (read : State → α) (s : State) : Except EnvFailure α × State :=
  match serve (loadScript bytes ++ commandScript i) s with
  | .next t =>
    match serve (commandScript .clr) t with
    | .next u => (.ok (read t), u)
    | .fault _ => (.error .portStopped, t)
    | .refused _ => (.error .portStopped, t)
  | .fault _ => (.error .portStopped, s)
  | .refused _ => (.error .portStopped, s)

/-- Steps 2 to 6 of getCode from the decoded key (R145). -/
def codeOfKey (key : List Byte) (step : Int) (s : State) : Except EnvFailure (List Byte) × State :=
  if 0 ≤ step ∧ step < 2 ^ 64 then
    transact (Config.hmacSha1 key (be64 step.toNat)).toList .truncfmt
      (fun t => Memory.bytesFrom t.obuf 0 Config.digits) s
  else (.error .noTimeStep, s)

/-- getCode(secret, step) on an instance in the state `s` (R145); any failure of B32DEC is InvalidSecret (R146). -/
def getCode (secret : List Byte) (step : Int) (s : State) : Except EnvFailure (List Byte) × State :=
  match serve (loadScript secret ++ commandScript .b32dec) s with
  | .next t => if t.failed then (.error .invalidSecret, t) else codeOfKey (outputString t) step t
  | .fault _ => (.error .portStopped, s)
  | .refused _ => (.error .portStopped, s)

/-- getCode without a time step: the clock's (R142, R145; the reading is an argument, log 12). -/
def getCodeNow (secret : List Byte) (unixTime : Nat) (s : State) : Except EnvFailure (List Byte) × State :=
  getCode secret (timeStep unixTime) s

/-- createSecret(length) (R147): any integer may be asked for. `draw` gives the random bytes, `none` is a platform without
a secure source (R148; log 12). -/
def createSecret (length : Int) (draw : Option (Nat → Byte)) (s : State) : Except EnvFailure (List Byte) × State :=
  if length < Config.secretMin ∨ (Config.secretMax : Int) < length then (.error .invalidParameter, s)
  else
    match draw with
    | none => (.error .insecureRandomSource, s)
    | some byte =>
      transact ((List.range length.toNat).map byte) .b32proj (fun t => Memory.bytesFrom t.obuf 0 length.toNat) s

/-- createSecret without a length: 16 characters (R147). -/
def createSecretDefault (draw : Option (Nat → Byte)) (s : State) : Except EnvFailure (List Byte) × State :=
  createSecret Config.secretDefault draw s

/-- The string comparison (R150): unequal lengths at once, else every byte pair is compared and the differences are
gathered; when it ends early is a matter of time, which the model does not show (log 17). -/
def constantTimeEq (a b : List Byte) : Bool :=
  if a.length = b.length then (List.zipWith (· ^^^ ·) a b).foldl (· ||| ·) 0x00#8 == 0x00#8 else false

/-- The scan of verifyCode (R149): true at the first matching step, an undecodable secret matches none
(90_conflicts.md C5). -/
def scanSteps (secret candidate : List Byte) : List Int → State → Except EnvFailure Bool × State
  | [], s => (.ok false, s)
  | step :: steps, s =>
    match getCode secret step s with
    | (.ok code, t) => if constantTimeEq code candidate then (.ok true, t) else scanSteps secret candidate steps t
    | (.error .invalidSecret, t) => scanSteps secret candidate steps t
    | (.error e, t) => (.error e, t)

/-- The time steps current - discrepancy, …, current + discrepancy (R149). -/
def stepWindow (current discrepancy : Nat) : List Int :=
  (List.range (2 * discrepancy + 1)).map fun k : Nat => (current : Int) - (discrepancy : Int) + (k : Int)

/-- verifyCode(secret, candidate, discrepancy) at a clock reading (R149). -/
def verifyCode (secret candidate : List Byte) (discrepancy unixTime : Nat) (s : State) :
    Except EnvFailure Bool × State :=
  if candidate.length = Config.digits then
    scanSteps secret candidate (stepWindow (timeStep unixTime) discrepancy) s
  else (.ok false, s)

/-- verifyCode without a discrepancy: the current step and one on either side (R149). -/
def verifyCodeDefault (secret candidate : List Byte) (unixTime : Nat) (s : State) : Except EnvFailure Bool × State :=
  verifyCode secret candidate Config.discrepancyDefault unixTime s

/-- The bytes of an ASCII text. -/
def asciiBytes (text : String) : List Byte := text.toList.map fun c => BitVec.ofNat 8 c.toNat

/-- The URI formatter (R152): the order label, secret, issuer; how label and issuer are escaped is open (log 15). -/
def otpauthUri (label secret issuer : List Byte) : List Byte :=
  asciiBytes "otpauth://totp/" ++ Config.uriLabel label ++ asciiBytes "?secret=" ++ secret
    ++ asciiBytes "&issuer=" ++ Config.uriIssuer issuer

end Sys2Proof.Machine
end

