-- ==== Sys2Proof/WellFormed.lean ====
section
/-! DEFINITION. What is well-formed: every command (R64: no operand that could be out of range), and a port event whose
buffer index exists (20_memory.md R41, R45). -/

namespace Sys2Proof

/-- Every command is well-formed: the one field, P, exists only where R62 gives it a meaning. -/
def Instr.wellFormed : Instr → Bool
  | .clr => true
  | .b32dec => true
  | .b32enc _ => true
  | .b32proj => true
  | .b32lut _ => true
  | .truncfmt => true

/-- A buffer access is well-formed exactly when its index is an element's (R41). -/
def Machine.PortEvent.wellFormed : Machine.PortEvent → Bool
  | .writeIbuf i _ => decide (i < Config.ibufCap)
  | .readIbuf i => decide (i < Config.ibufCap)
  | .writeObuf i _ => decide (i < Config.obufCap)
  | .readObuf i => decide (i < Config.obufCap)
  | .writeReg _ _ => true
  | .readReg _ => true
  | .reset => true

end Sys2Proof
end

