-- ==== Sys2Proof/Safety.lean ====
section
/-! DEFINITION. The terms claims use: the invariant of every state the host can observe (10_state.md R26), what a command
leaves on success and on failure, and the closed forms of the two mappers (40_base32_decode.md R85, 41_base32_encode.md
R104). -/

namespace Sys2Proof.Machine

/-- The invariants of R26, with the canonical form of the two buffers (log 9). -/
structure ObservableInv (s : State) : Prop where
  ibufCanonical : Memory.wf Config.ibufCap s.ibuf = true
  obufCanonical : Memory.wf Config.obufCap s.obuf = true
  /-- Invariant 1. -/
  olenFits : s.olen.toNat ≤ Config.obufCap
  /-- Invariant 2. -/
  tailZero : ∀ i, s.olen.toNat ≤ i → Memory.read s.obuf i = 0x00#8
  /-- Invariant 3. -/
  statusLegal : s.status = 0x00#8 ∨ s.status = 0x01#8 ∨ s.status = 0x07#8 ∨ s.status = 0x0B#8 ∨ s.status = 0x0F#8
  /-- Invariant 4. -/
  emptyUnlessSuccess : s.failed = true ∨ s.done = false →
    s.olen = 0x00#8 ∧ s.offset = 0x00#8 ∧ s.dbc = 0#32 ∧ s.value = 0#32
  /-- Invariant 5. -/
  offsetRange : s.offset.toNat ≤ 15
  dbcRange : s.dbc.toNat ≤ 0x7FFFFFFF
  valueReduced : s.value.toNat = s.dbc.toNat % 1000000
  /-- What invariant 6 says of one state. -/
  truncLength : s.dbc ≠ 0#32 ∨ s.offset ≠ 0x00#8 → s.olen = 0x06#8 ∧ s.status = 0x01#8

/-- The input string of a state is `bytes`, and fits IBUF (R11). -/
def HoldsInput (s : State) (bytes : List Byte) : Prop :=
  s.ilen.toNat = bytes.length ∧ bytes.length ≤ Config.ibufCap ∧
    ∀ i, i < bytes.length → Memory.read s.ibuf i = bytes.getD i 0x00#8

/-- What every command but CLR leaves unchanged: every element of IBUF, ILEN (R137, R165), and the port's own lists. -/
def InputKept (s t : State) : Prop :=
  (∀ a, Memory.read t.ibuf a = Memory.read s.ibuf a) ∧ t.ibuf = s.ibuf ∧ t.ilen = s.ilen ∧
    t.pending = s.pending ∧ t.replies = s.replies

/-- The state `t` shows a success with this result string and these result registers, every element of OBUF at or above
OLEN being 0x00 (R137). -/
def ShowsSuccess (t : State) (bytes : List Byte) (offset : BitVec 8) (dbc value : Word32) : Prop :=
  t.status = 0x01#8 ∧ t.olen.toNat = bytes.length ∧ (∀ i, Memory.read t.obuf i = bytes.getD i 0x00#8) ∧
    t.offset = offset ∧ t.dbc = dbc ∧ t.value = value

/-- The state `t` shows a failure with this STATUS and an all-zero output (R165). -/
def ShowsFailure (t : State) (status : BitVec 8) : Prop :=
  t.status = status ∧ t.olen = 0x00#8 ∧ (∀ i, Memory.read t.obuf i = 0x00#8) ∧
    t.offset = 0x00#8 ∧ t.dbc = 0#32 ∧ t.value = 0#32

/-- The command completes, successfully, with this result string and OFFSET = DBC = VALUE = 0. -/
def Completes (i : Instr) (s : State) (bytes : List Byte) : Prop :=
  ∃ t, exec i s = .next t ∧ ShowsSuccess t bytes 0x00#8 0#32 0#32 ∧ InputKept s t

/-- The command completes with a failure. -/
def Fails (i : Instr) (s : State) (status : BitVec 8) : Prop :=
  ∃ t, exec i s = .next t ∧ ShowsFailure t status ∧ InputKept s t

/-- A byte is one of the 32 alphabet bytes, by their code points (30_encoding.md R65, R67). -/
def InAlphabet (c : Byte) : Prop := (0x41 ≤ c.toNat ∧ c.toNat ≤ 0x5A) ∨ (0x32 ≤ c.toNat ∧ c.toNat ≤ 0x37)

/-- Index `i` of the input is below the start of the pad run (40_base32_decode.md R81): some byte at or after it, in the
input, is not PADCHAR. -/
def IsData (s : State) (i : Nat) : Prop :=
  ∃ j, i ≤ j ∧ j < s.ilen.toNat ∧ Memory.read s.ibuf j ≠ 0x3D#8

/-- The number whose base-32 digits are the groups: W of R85. -/
def groupsNumber (groups : List (BitVec 5)) : Nat := groups.foldl (fun w v => w * 32 + v.toNat) 0

/-- The number whose base-256 digits are the bytes: V of R104. -/
def bytesNumber (bytes : List Byte) : Nat := bytes.foldl (fun w b => w * 256 + b.toNat) 0

/-- The closed form of decoding (R85): r[j] = (W >> (5m - 8(j+1))) & 0xFF for the (5m) div 8 whole bytes. -/
def decodedForm (groups : List (BitVec 5)) : List Byte :=
  (List.range (5 * groups.length / 8)).map fun j =>
    BitVec.ofNat 8 (groupsNumber groups >>> (5 * groups.length - 8 * (j + 1)))

/-- The unpadded length ceil(8n/5) of R104. -/
def symbolCount (n : Nat) : Nat := (8 * n + 4) / 5

/-- The closed form of unpadded encoding (R104): r[j] = ALPHA((V' >> (5(L0-1-j))) & 0x1F), V' = V << (5 L0 - 8n). -/
def encodedForm (bytes : List Byte) : List Byte :=
  (List.range (symbolCount bytes.length)).map fun j =>
    alpha (BitVec.ofNat 5
      ((bytesNumber bytes <<< (5 * symbolCount bytes.length - 8 * bytes.length))
        >>> (5 * (symbolCount bytes.length - 1 - j))))

/-- The number of padding characters by n mod 5 (41_base32_encode.md R103). -/
def padCount (n : Nat) : Nat :=
  match n % 5 with
  | 0 => 0
  | 1 => 6
  | 2 => 4
  | 3 => 3
  | _ => 1

/-- The six digits of a number below 10^6 (42_truncate_format.md R126): r[k] = 0x30 + (val div 10^(5-k)) mod 10. -/
def sixDigits (value : Nat) : List Byte :=
  (List.range 6).map fun k => BitVec.ofNat 8 (0x30 + value / 10 ^ (5 - k) % 10)

/-- DBC of a digest by numbers (42_truncate_format.md R122 to R124): the offset is the last byte mod 16, the window the
four bytes from there, most significant first, and the mask a remainder modulo 2^31. -/
def digestCode (digest : Nat → Byte) : Nat :=
  let off := (digest 19).toNat % 16
  ((digest off).toNat * 2 ^ 24 + (digest (off + 1)).toNat * 2 ^ 16 + (digest (off + 2)).toNat * 2 ^ 8
    + (digest (off + 3)).toNat) % 2 ^ 31

end Sys2Proof.Machine
end

