-- ==== Sys2Proof/Certificates/Slice0/Obligations.lean ====
section
/-! DEFINITION. The statements about B32OTP for the provers; each docstring names the rule or section of spec/. -/

open Sys2Proof Sys2Proof.Machine

/-! ## Reset and the invariant -/

/-- R27: every buffer element, length, status and result register is zero after reset; CFG, ALPHABET and PADCHAR hold their
constants, and the working registers start at zero. -/
def Obligations.ResetIsAllZero : Prop :=
  (∀ a, Memory.read State.reset.ibuf a = 0x00#8) ∧ State.reset.ilen = 0x00#8 ∧
  (∀ a, Memory.read State.reset.obuf a = 0x00#8) ∧ State.reset.olen = 0x00#8 ∧
  State.reset.status = 0x00#8 ∧ State.reset.offset = 0x00#8 ∧ State.reset.dbc = 0#32 ∧ State.reset.value = 0#32 ∧
  readRegister 0x07#8 State.reset = 0x80801406#32 ∧ alphabet = asciiBytes "ABCDEFGHIJKLMNOPQRSTUVWXYZ234567" ∧
  padChar = 0x3D#8 ∧ ({} : Mapper).acc = 0#12 ∧ ({} : Mapper).nbits = 0

/-- 10_state.md section 9 (R26, the spec's own inference): the reset state meets the invariants. -/
def Obligations.ResetMeetsInvariant : Prop := ObservableInv State.reset

/-- 10_state.md section 9 (R26, the spec's own inference): every step, whatever the pending event, keeps the invariants and
the canonical form of the buffers (log 9). -/
def Obligations.StepKeepsInvariant : Prop :=
  ∀ s t, ObservableInv s → step s = .next t → ObservableInv t

/-! ## The command word -/

/-- 30_encoding.md section 1 (R60 to R62): decoding the word of a command gives the command, and a word that decodes is
the word of what it decodes to. -/
def Obligations.EncodingRoundTrip : Prop :=
  (∀ i : Instr, i.wellFormed = true → decode (encode i) = .ok i) ∧
  ∀ (w : BitVec 8) (i : Instr), decode w = .ok i → encode i = w

/-- R63, R163: exactly the eight listed words are legal; any other word, whatever the state, completes with ILLEGAL_CMD,
zeroes the outputs and leaves IBUF and ILEN; a legal word never gives ILLEGAL_CMD. -/
def Obligations.IllegalWordsComplete : Prop :=
  (∀ w : BitVec 8, (∃ i, decode w = .ok i) ↔
    w ∈ [0x00#8, 0x01#8, 0x02#8, 0x0A#8, 0x03#8, 0x04#8, 0x0C#8, 0x05#8]) ∧
  (∀ (w : BitVec 8) (s : State), (∀ i, decode w ≠ .ok i) →
    ∃ t, perform (.writeReg 0x00#8 w.toNat) s = .next t ∧ ShowsFailure t 0x0F#8 ∧ InputKept s t) ∧
  ∀ (i : Instr) (s t : State), exec i s = .next t → t.status ≠ 0x0F#8

/-- 30_encoding.md section 1 (R61, R62): the eight legal words, written out from the table, decode to their commands. -/
def Obligations.LegalWordsDecode : Prop :=
  decode 0b00000000#8 = .ok .clr ∧ decode 0b00000001#8 = .ok .b32dec ∧
  decode 0b00000010#8 = .ok (.b32enc false) ∧ decode 0b00001010#8 = .ok (.b32enc true) ∧
  decode 0b00000011#8 = .ok .b32proj ∧ decode 0b00000100#8 = .ok (.b32lut false) ∧
  decode 0b00001100#8 = .ok (.b32lut true) ∧ decode 0b00000101#8 = .ok .truncfmt

/-! ## The step -/

/-- 43_control.md section 1 (R135, R136): when the oldest pending event is a CMD write whose bits 7:0 decode to a command,
the step is that command on the state without the event. -/
def Obligations.StepRunsDecodedCommand : Prop :=
  ∀ (s : State) (v : Nat) (rest : List PortEvent) (i : Instr),
    s.pending = .writeReg 0x00#8 v :: rest → decode (BitVec.ofNat 8 v) = .ok i →
    step s = exec i { s with pending := rest }

/-- 20_memory.md section 8 (R51): the step performs the oldest event, on the state without it. That a block with no pending
event stays as it is is the model's choice (log 2). -/
def Obligations.StepServesOldestEvent : Prop :=
  (∀ (s : State) (e : PortEvent) (rest : List PortEvent),
    s.pending = e :: rest → step s = perform e { s with pending := rest }) ∧
  ∀ s : State, s.pending = [] → step s = .next s

/-- 20_memory.md section 2 (R45): the model stops only on an access to a buffer index that does not exist, under the name of
that buffer, and on nothing else. That it stops there is the model's choice (log 4). -/
def Obligations.StepStopsOnlyOutsideBuffers : Prop :=
  ∀ s : State,
    (∃ t, step s = .next t) ∨
    (∃ i e rest, s.pending = e :: rest ∧ Config.ibufCap ≤ i ∧ (e = .readIbuf i ∨ ∃ b, e = .writeIbuf i b) ∧
      step s = .fault (.noIbufElement i)) ∨
    (∃ i e rest, s.pending = e :: rest ∧ Config.obufCap ≤ i ∧ (e = .readObuf i ∨ ∃ b, e = .writeObuf i b) ∧
      step s = .fault (.noObufElement i))

/-- 43_control.md section 1 (R139): every command completes in every state, and so does every word written to CMD. -/
def Obligations.EveryCommandCompletes : Prop :=
  (∀ (i : Instr) (s : State), ∃ t, exec i s = .next t) ∧
  ∀ (v : Nat) (s : State), ∃ t, perform (.writeReg 0x00#8 v) s = .next t

/-! ## Completion, frame, failures -/

/-- R138: CLR, word 0x00, leaves every register and every element of both buffers at its reset value in every state; CLR
twice equals CLR once; CFG is unaffected; the word 0x08 is not CLR; no other command leaves DONE = 0. -/
def Obligations.ClrRestoresReset : Prop :=
  decode 0x00#8 = .ok .clr ∧ (∀ i, decode 0x08#8 ≠ .ok i) ∧
  (∀ (i : Instr) (s t : State), i ≠ .clr → exec i s = .next t → t.done = true) ∧
  ∀ s : State, ∃ t, exec .clr s = .next t ∧
    (∀ a, Memory.read t.ibuf a = 0x00#8) ∧ t.ilen = 0x00#8 ∧
    (∀ a, Memory.read t.obuf a = 0x00#8) ∧ t.olen = 0x00#8 ∧
    t.status = 0x00#8 ∧ t.offset = 0x00#8 ∧ t.dbc = 0#32 ∧ t.value = 0#32 ∧
    readRegister 0x07#8 t = readRegister 0x07#8 s ∧
    t = { State.reset with pending := s.pending, replies := s.replies } ∧ exec .clr t = .next t

/-- 10_state.md section 2 (R11, R12): no command but CLR changes an element of IBUF or ILEN, and no command touches the
model's own lists of the port (log 1, log 3). What the outputs become is said by OutputsDependOnInputOnly. -/
def Obligations.CommandFrame : Prop :=
  ∀ (i : Instr) (s t : State), exec i s = .next t →
    (i ≠ .clr → InputKept s t) ∧ t.pending = s.pending ∧ t.replies = s.replies

/-- R165: after a failed command, whatever the word, OBUF, OLEN, OFFSET, DBC and VALUE are zero, STATUS is
0x03 | (e << 2) for a code e of 1, 2 or 3, and IBUF and ILEN are not written. -/
def Obligations.FailedCompletionZeroesOutputs : Prop :=
  ∀ (v : Nat) (s t : State), perform (.writeReg 0x00#8 v) s = .next t → t.failed = true →
    ∃ e : BitVec 2, e ≠ 0#2 ∧ t.err = e ∧ t.done = true ∧
      ShowsFailure t (0x03#8 ||| (e.setWidth 8 <<< 2)) ∧ InputKept s t

/-- R137: a command other than CLR that succeeds leaves its result string of n <= OBUF_CAP bytes in OBUF from index 0 with
zeros above, OLEN = n, STATUS = 0x01, IBUF and ILEN not written, and OFFSET = DBC = VALUE = 0 unless it is TRUNCFMT. -/
def Obligations.SuccessfulCompletion : Prop :=
  ∀ (i : Instr) (s t : State), i ≠ .clr → exec i s = .next t → t.failed = false →
    (∃ (r : List Byte) (offset : BitVec 8) (dbc value : Word32),
      r.length ≤ Config.obufCap ∧ ShowsSuccess t r offset dbc value ∧
      (i ≠ .truncfmt → offset = 0x00#8 ∧ dbc = 0#32 ∧ value = 0#32)) ∧
    InputKept s t

/-- 10_state.md section 4 (R15, R25): after any word, STATUS is one of five values, 0x00 only after CLR; FAIL is set exactly
when ERR is not 0, FAIL implies DONE, and bits 7:4 are 0. -/
def Obligations.StatusOutcomes : Prop :=
  ∀ (w : BitVec 8) (s t : State), perform (.writeReg 0x00#8 w.toNat) s = .next t →
    t.status ∈ [0x00#8, 0x01#8, 0x07#8, 0x0B#8, 0x0F#8] ∧ (t.status = 0x00#8 ↔ w = 0x00#8) ∧
    (t.failed = true ↔ t.err ≠ 0#2) ∧ (t.failed = true → t.done = true) ∧ t.status.extractLsb' 4 4 = 0#4

/-- 10_state.md section 8 (R22): what a word written to CMD leaves in OBUF, OLEN, STATUS, OFFSET, DBC and VALUE is a function
of the word, ILEN and IBUF[0..min(ILEN, IBUF_CAP)-1]. -/
def Obligations.OutputsDependOnInputOnly : Prop :=
  ∀ (v : Nat) (s₁ s₂ : State), s₁.ilen = s₂.ilen →
    (∀ a, a < min s₁.ilen.toNat Config.ibufCap → Memory.read s₁.ibuf a = Memory.read s₂.ibuf a) →
    ∃ t₁ t₂, perform (.writeReg 0x00#8 v) s₁ = .next t₁ ∧ perform (.writeReg 0x00#8 v) s₂ = .next t₂ ∧
      (∀ a, Memory.read t₁.obuf a = Memory.read t₂.obuf a) ∧ t₁.obuf = t₂.obuf ∧ t₁.olen = t₂.olen ∧
      t₁.status = t₂.status ∧ t₁.offset = t₂.offset ∧ t₁.dbc = t₂.dbc ∧ t₁.value = t₂.value

/-- R161: INVALID_ENCODING is raised by B32DEC only, exactly when ILEN is served and the input has no data symbol or some
data byte is not in the alphabet. -/
def Obligations.InvalidEncodingExactly : Prop :=
  ∀ (i : Instr) (s t : State), exec i s = .next t →
    (t.status = 0x07#8 ↔
      i = .b32dec ∧ s.ilen.toNat ≤ Config.ibufCap ∧
      ((∀ a, a < s.ilen.toNat → Memory.read s.ibuf a = 0x3D#8) ∨
        ∃ a, IsData s a ∧ ¬ InAlphabet (Memory.read s.ibuf a)))

/-- R162: BAD_LENGTH is raised exactly when the length cannot be served: by the three Base32 data commands when
ILEN > IBUF_CAP, by B32ENC when the text would be longer than OBUF_CAP, by TRUNCFMT when ILEN is not 20; never by CLR or
B32LUT. -/
def Obligations.BadLengthExactly : Prop :=
  ∀ (i : Instr) (s t : State), exec i s = .next t →
    (t.status = 0x0B#8 ↔
      match i with
      | .clr => False
      | .b32dec => Config.ibufCap < s.ilen.toNat ∨ Config.obufCap < 5 * (s.ilen.toNat - padRun (inputString s)) / 8
      | .b32enc false => Config.ibufCap < s.ilen.toNat ∨ Config.obufCap < symbolCount s.ilen.toNat
      | .b32enc true =>
        Config.ibufCap < s.ilen.toNat ∨ Config.obufCap < symbolCount s.ilen.toNat + padCount s.ilen.toNat
      | .b32proj => Config.ibufCap < s.ilen.toNat ∨ Config.obufCap < s.ilen.toNat
      | .b32lut _ => False
      | .truncfmt => s.ilen.toNat ≠ 20)

/-- R164: one failure is reported, the first that holds of ILLEGAL_CMD (whatever ILEN and IBUF), BAD_LENGTH (whatever IBUF)
and INVALID_ENCODING; an empty input is INVALID_ENCODING to B32DEC and BAD_LENGTH to TRUNCFMT. -/
def Obligations.FailurePriority : Prop :=
  (∀ (w : BitVec 8) (s : State), (∀ i, decode w ≠ .ok i) →
    ∃ t, perform (.writeReg 0x00#8 w.toNat) s = .next t ∧ t.status = 0x0F#8) ∧
  (∀ (i : Instr) (s : State), i ≠ .clr → (∀ p, i ≠ .b32lut p) → Config.ibufCap < s.ilen.toNat → Fails i s 0x0B#8) ∧
  (∀ s : State, s.ilen = 0x00#8 → Fails .b32dec s 0x07#8 ∧ Fails .truncfmt s 0x0B#8) ∧
  ∀ s : State, s.ilen.toNat = 200 → ∃ t, perform (.writeReg 0x00#8 0x09) s = .next t ∧ t.status = 0x0F#8

/-- 60_exceptions.md section 5 (R168): a command other than CLR, failed or not, leaves nothing behind: the next word written
to CMD has exactly the outcome it would have had without it. -/
def Obligations.CommandsLeaveNoTrace : Prop :=
  ∀ (v v' : Nat) (s t : State), v % 256 ≠ 0 → perform (.writeReg 0x00#8 v) s = .next t →
    perform (.writeReg 0x00#8 v') t = perform (.writeReg 0x00#8 v') s

/-- 10_state.md section 5 (R16, R17, R18): OFFSET, DBC and VALUE are not all zero only after a TRUNCFMT that succeeded; the
unused bits of each are 0 after every command. -/
def Obligations.ResultRegistersOfTruncfmtOnly : Prop :=
  ∀ (i : Instr) (s t : State), exec i s = .next t →
    (t.offset ≠ 0x00#8 ∨ t.dbc ≠ 0#32 ∨ t.value ≠ 0#32 → i = .truncfmt ∧ s.ilen.toNat = 20 ∧ t.status = 0x01#8) ∧
    t.offset.extractLsb' 4 4 = 0#4 ∧ t.dbc.getLsbD 31 = false ∧ t.value.extractLsb' 20 12 = 0#12

/-! ## B32DEC -/

/-- 40_base32_decode.md sections 1 and 2 (R85 is the spec's own inference from the mapper): one or more symbols and any
pad run decode to the closed form. -/
def Obligations.B32decDecodesSymbols : Prop :=
  ∀ (s : State) (groups : List (BitVec 5)) (p : Nat), groups ≠ [] →
    HoldsInput s (groups.map alpha ++ List.replicate p 0x3D#8) → Completes .b32dec s (decodedForm groups)

/-- R82, R88: an input that IBUF holds fails with INVALID_ENCODING when any data byte is outside the alphabet, wherever it
stands, and when there is no data symbol at all. -/
def Obligations.B32decRejectsBadInput : Prop :=
  ∀ s : State, s.ilen.toNat ≤ Config.ibufCap →
    ((∃ a, IsData s a ∧ ¬ InAlphabet (Memory.read s.ibuf a)) → Fails .b32dec s 0x07#8) ∧
    ((∀ a, a < s.ilen.toNat → Memory.read s.ibuf a = 0x3D#8) → Fails .b32dec s 0x07#8)

/-- R87: a lower-case letter anywhere in the input makes the decode fail. -/
def Obligations.B32decRejectsLowerCase : Prop :=
  ∀ (s : State) (a : Nat), s.ilen.toNat ≤ Config.ibufCap → a < s.ilen.toNat →
    0x61 ≤ (Memory.read s.ibuf a).toNat → (Memory.read s.ibuf a).toNat ≤ 0x7A → Fails .b32dec s 0x07#8

/-- R90 with the capacities of this instance: ILEN above IBUF_CAP fails with BAD_LENGTH whatever IBUF holds, and no input
IBUF holds does. -/
def Obligations.B32decLengthFailure : Prop :=
  ∀ s : State, (Config.ibufCap < s.ilen.toNat → Fails .b32dec s 0x0B#8) ∧
    (s.ilen.toNat ≤ Config.ibufCap → ∃ t, exec .b32dec s = .next t ∧ t.status ≠ 0x0B#8)

/-- R86: the 5m mod 8 bits after the last whole byte are dropped unexamined: two texts whose groups differ in those bits only
decode alike, and both succeed; MY, MZ, M2 and M3 decode to 0x66 and any one symbol to the empty string. -/
def Obligations.B32decDropsTrailingBits : Prop :=
  (∀ (s₁ s₂ : State) (g₁ g₂ : List (BitVec 5)) (p₁ p₂ : Nat), g₁ ≠ [] → g₁.length = g₂.length →
    groupsNumber g₁ >>> (5 * g₁.length % 8) = groupsNumber g₂ >>> (5 * g₂.length % 8) →
    HoldsInput s₁ (g₁.map alpha ++ List.replicate p₁ 0x3D#8) →
    HoldsInput s₂ (g₂.map alpha ++ List.replicate p₂ 0x3D#8) →
    ∃ bytes, Completes .b32dec s₁ bytes ∧ Completes .b32dec s₂ bytes) ∧
  (∀ (s : State) (text : List Byte),
    text ∈ [asciiBytes "MY", asciiBytes "MZ", asciiBytes "M2", asciiBytes "M3"] → HoldsInput s text →
    Completes .b32dec s [0x66#8]) ∧
  ∀ (s : State) (v : BitVec 5), HoldsInput s [alpha v] → Completes .b32dec s []

/-- 40_base32_decode.md section 2 (R89, the spec's own inference): B32DEC succeeds with no byte exactly when the input is one
symbol and a pad run. -/
def Obligations.B32decEmptyResultIsOneSymbol : Prop :=
  ∀ s t : State, exec .b32dec s = .next t →
    ((t.status = 0x01#8 ∧ t.olen = 0x00#8) ↔
      ∃ (v : BitVec 5) (p : Nat), HoldsInput s (alpha v :: List.replicate p 0x3D#8))

/-! ## B32ENC, B32PROJ, B32LUT -/

/-- 41_base32_encode.md section 1 (R100 to R102, closed form of R104, the spec's own inference): with P = 0 up to 80 bytes
encode to the closed form. -/
def Obligations.B32encUnpadded : Prop :=
  ∀ (s : State) (bytes : List Byte), HoldsInput s bytes → bytes.length ≤ 80 →
    Completes (.b32enc false) s (encodedForm bytes)

/-- 41_base32_encode.md section 1 (R103): with P = 1 the same text is followed by 0, 6, 4, 3 or 1 padding characters as n mod
5 says, and its length is a multiple of 8. -/
def Obligations.B32encPadded : Prop :=
  ∀ (s : State) (bytes : List Byte), HoldsInput s bytes → bytes.length ≤ 80 →
    Completes (.b32enc true) s (encodedForm bytes ++ List.replicate (padCount bytes.length) 0x3D#8) ∧
    (encodedForm bytes ++ List.replicate (padCount bytes.length) 0x3D#8).length % 8 = 0

/-- R105: with the default capacities ILEN up to 80 succeeds, 80 bytes giving 128 characters, and any larger ILEN fails with
BAD_LENGTH, padded or not. -/
def Obligations.B32encLengthFailure : Prop :=
  ∀ (s : State) (p : Bool), (80 < s.ilen.toNat → Fails (.b32enc p) s 0x0B#8) ∧
    (s.ilen.toNat ≤ 80 → ∃ t, exec (.b32enc p) s = .next t ∧ t.status = 0x01#8 ∧
      (s.ilen.toNat = 80 → t.olen.toNat = 128))

/-- R106: an empty input encodes to an empty text, successfully, for either P. -/
def Obligations.B32encEmptyInput : Prop :=
  ∀ (s : State) (p : Bool), s.ilen = 0x00#8 → Completes (.b32enc p) s []

/-- R110: each of up to 128 bytes becomes the alphabet character of its low 5 bits, at the same index; a larger ILEN fails
with BAD_LENGTH; the word is 0x03. -/
def Obligations.B32projProjects : Prop :=
  decode 0x03#8 = .ok .b32proj ∧
  ∀ s : State,
    (∀ bytes, HoldsInput s bytes →
      Completes .b32proj s (bytes.map fun b => alphabet.getD (b.toNat % 32) 0x00#8)) ∧
    (Config.ibufCap < s.ilen.toNat → Fails .b32proj s 0x0B#8)

/-- 41_base32_encode.md section 2 (R111, R112; R112 is the spec's own inference): every character of a projection is in the
alphabet, and decoding it gives the low 5 bits of the input bytes, cut into bytes. -/
def Obligations.ProjectionDecodesToLowBits : Prop :=
  ∀ (s : State) (bytes : List Byte), bytes ≠ [] → HoldsInput s bytes →
    ∃ t, exec .b32proj s = .next t ∧ t.status = 0x01#8 ∧ t.olen = s.ilen ∧
      (∀ a, a < bytes.length → InAlphabet (Memory.read t.obuf a)) ∧
      ∀ u : State, HoldsInput u (outputString t) →
        Completes .b32dec u (decodedForm (bytes.map fun b => b.setWidth 5))

/-- R115: B32LUT gives the 32 characters A to Z, 2 to 7, and with P the padding character after them, in every state; the
words are 0x04 and 0x0C. -/
def Obligations.B32lutReadsTable : Prop :=
  decode 0x04#8 = .ok (.b32lut false) ∧ decode 0x0C#8 = .ok (.b32lut true) ∧
  ∀ s : State,
    Completes (.b32lut false) s (asciiBytes "ABCDEFGHIJKLMNOPQRSTUVWXYZ234567") ∧
    Completes (.b32lut true) s (asciiBytes "ABCDEFGHIJKLMNOPQRSTUVWXYZ234567=")

/-- 30_encoding.md section 2 (R65, R67, R67 being the spec's own inference): the alphabet and its inverse are bijections
between the 5-bit values and the alphabet bytes, and no other byte has a value. -/
def Obligations.AlphabetBijection : Prop :=
  (∀ v : BitVec 5, symbolValue (alpha v) = some v ∧
    (alpha v).toNat = if v.toNat ≤ 25 then 0x41 + v.toNat else 0x18 + v.toNat) ∧
  (∀ c : Byte, isAlpha c = true ↔ InAlphabet c) ∧
  ∀ (c : Byte) (v : BitVec 5), symbolValue c = some v → alpha v = c

/-- 40_base32_decode.md section 3 (R92, the spec's own inference): for 1 to 80 bytes, decoding what B32ENC gives, padded or
not, gives the bytes back. -/
def Obligations.EncodeDecodeRoundTrip : Prop :=
  ∀ (s : State) (p : Bool) (bytes : List Byte), bytes ≠ [] → bytes.length ≤ 80 → HoldsInput s bytes →
    ∃ t, exec (.b32enc p) s = .next t ∧ t.status = 0x01#8 ∧
      ∀ u : State, HoldsInput u (outputString t) → Completes .b32dec u bytes

/-! ## TRUNCFMT -/

/-- R122, R124, R125 and the stages of R120: with ILEN = 20, OFFSET is the low nibble of the last digest byte, DBC the
big-endian window there with bit 31 cleared, VALUE its remainder modulo 10^6, and OBUF the six digits. -/
def Obligations.TruncfmtStages : Prop :=
  ∀ s : State, s.ilen.toNat = 20 →
    ∃ t, exec .truncfmt s = .next t ∧ InputKept s t ∧
      ShowsSuccess t (sixDigits t.value.toNat) t.offset t.dbc t.value ∧
      t.offset.toNat = (Memory.read s.ibuf 19).toNat % 16 ∧
      t.dbc.toNat = digestCode (Memory.read s.ibuf) ∧
      t.value.toNat = t.dbc.toNat % 1000000 ∧
      t.offset.toNat ≤ 15 ∧ t.dbc.toNat ≤ 2147483647 ∧ t.value.toNat ≤ 999999 ∧
      ∃ q, q ≤ 2147 ∧ t.dbc.toNat = 1000000 * q + t.value.toNat

/-- R121: any ILEN but 20, above IBUF_CAP too, fails with BAD_LENGTH; every 20-byte digest succeeds, IBUF[19] being its
last byte. -/
def Obligations.TruncfmtDigestLength : Prop :=
  ∀ s : State, (s.ilen.toNat ≠ 20 → Fails .truncfmt s 0x0B#8) ∧
    (s.ilen.toNat = 20 → ∃ t, exec .truncfmt s = .next t ∧ t.status = 0x01#8 ∧
      t.offset.toNat = (Memory.read s.ibuf 19).toNat % 16)

/-- R126: the six result bytes are ASCII digits, and read as a decimal number they are VALUE. -/
def Obligations.TruncfmtDigitsReadBack : Prop :=
  ∀ s t : State, s.ilen.toNat = 20 → exec .truncfmt s = .next t →
    t.olen = 0x06#8 ∧
    (∀ k, k < 6 → (Memory.read t.obuf k).toNat = 0x30 + t.value.toNat / 10 ^ (5 - k) % 10 ∧
      0x30 ≤ (Memory.read t.obuf k).toNat ∧ (Memory.read t.obuf k).toNat ≤ 0x39) ∧
    t.value.toNat = ((List.range 6).map fun k => ((Memory.read t.obuf k).toNat - 0x30) * 10 ^ (5 - k)).sum

/-- 42_truncate_format.md section 3 (R127, the spec's own inference): two digests that agree on the low nibble of byte 19 and
on the window give the same result. -/
def Obligations.TruncfmtReadsWindowOnly : Prop :=
  ∀ s₁ s₂ : State, s₁.ilen.toNat = 20 → s₂.ilen.toNat = 20 →
    (Memory.read s₁.ibuf 19).toNat % 16 = (Memory.read s₂.ibuf 19).toNat % 16 →
    (∀ j, j < 4 → Memory.read s₁.ibuf ((Memory.read s₁.ibuf 19).toNat % 16 + j) =
      Memory.read s₂.ibuf ((Memory.read s₁.ibuf 19).toNat % 16 + j)) →
    ∃ t₁ t₂, exec .truncfmt s₁ = .next t₁ ∧ exec .truncfmt s₂ = .next t₂ ∧ t₁.obuf = t₂.obuf ∧
      t₁.olen = t₂.olen ∧ t₁.status = t₂.status ∧ t₁.offset = t₂.offset ∧ t₁.dbc = t₂.dbc ∧ t₁.value = t₂.value

/-! ## The port -/

/-- 20_memory.md section 2 (R43): a read returns a value and changes nothing else; that the value is appended to `replies`
is the model's choice (log 3). Writing IBUF or ILEN twice equals writing once; a word written to
CMD twice leaves what writing it once leaves. -/
def Obligations.AccessesAreIdempotent : Prop :=
  (∀ (s t : State) (e : PortEvent), (∃ i, e = .readIbuf i ∨ e = .readObuf i) ∨ (∃ n, e = .readReg n) →
    perform e s = .next t → ∃ v, t = { s with replies := s.replies ++ [v] } ∧
      perform e t = .next { t with replies := t.replies ++ [v] }) ∧
  (∀ (s t : State) (i : Nat) (b : Byte), ObservableInv s → perform (.writeIbuf i b) s = .next t →
    perform (.writeIbuf i b) t = .next t) ∧
  ∀ (s t : State) (n : BitVec 8) (v : Nat), perform (.writeReg n v) s = .next t →
    perform (.writeReg n v) t = .next t

/-- 10_state.md section 5 (R28) and 20_memory.md section 1 (R41): what a host read of each register number returns. -/
def Obligations.RegisterReads : Prop :=
  ∀ (s : State) (n : BitVec 8), perform (.readReg n) s = .next { s with replies := s.replies ++
    [if n = 0x01#8 then s.status.setWidth 32 else if n = 0x02#8 then s.ilen.setWidth 32
     else if n = 0x03#8 then s.olen.setWidth 32 else if n = 0x04#8 then s.offset.setWidth 32
     else if n = 0x05#8 then s.dbc else if n = 0x06#8 then s.value
     else if n = 0x07#8 then 0x80801406#32 else 0#32] }

/-- 20_memory.md section 1 (R41): a read of an element that exists returns that element. -/
def Obligations.BufferReads : Prop :=
  ∀ (s : State) (i : Nat),
    (i < 128 → perform (.readIbuf i) s = .next { s with replies := s.replies ++ [(Memory.read s.ibuf i).setWidth 32] }) ∧
    (i < 128 → perform (.readObuf i) s = .next { s with replies := s.replies ++ [(Memory.read s.obuf i).setWidth 32] })

/-- R44: a write to a read-only register or to an element of OBUF has no effect, ILEN and CMD take bits 7:0 of the written
value, and CMD reads 0x00. -/
def Obligations.WritesToPort : Prop :=
  (∀ (s : State) (n : BitVec 8) (v : Nat), n ≠ 0x00#8 → n ≠ 0x02#8 → perform (.writeReg n v) s = .next s) ∧
  (∀ (s : State) (i : Nat) (b : Byte), i < 128 → perform (.writeObuf i b) s = .next s) ∧
  (∀ (s : State) (v : Nat), perform (.writeReg 0x02#8 v) s = .next { s with ilen := BitVec.ofNat 8 v }) ∧
  (∀ (s : State) (v : Nat), perform (.writeReg 0x00#8 v) s = perform (.writeReg 0x00#8 (v % 256)) s) ∧
  ∀ s : State, readRegister 0x00#8 s = 0#32

/-- R45: a reserved register number reads as 0 and ignores a write; an index outside a buffer is refused, here by a fault of
its own name (log 4). -/
def Obligations.ReservedAndMissingAccesses : Prop :=
  (∀ (s : State) (n : BitVec 8) (v : Nat), 0x08 ≤ n.toNat →
    readRegister n s = 0#32 ∧ perform (.writeReg n v) s = .next s) ∧
  ∀ (s : State) (i : Nat) (b : Byte), 128 ≤ i →
    perform (.readIbuf i) s = .fault (.noIbufElement i) ∧ perform (.writeIbuf i b) s = .fault (.noIbufElement i) ∧
    perform (.readObuf i) s = .fault (.noObufElement i) ∧ perform (.writeObuf i b) s = .fault (.noObufElement i)

/-- 20_memory.md section 1 (R41): a write to an element of IBUF stores the byte there, every other element of IBUF and every
other piece of state stays. -/
def Obligations.IbufWriteStores : Prop :=
  ∀ (s : State) (i : Nat) (b : Byte), ObservableInv s → i < 128 →
    ∃ t, perform (.writeIbuf i b) s = .next t ∧ Memory.read t.ibuf i = b ∧
      (∀ a, a ≠ i → Memory.read t.ibuf a = Memory.read s.ibuf a) ∧ t = { s with ibuf := t.ibuf }

/-- 20_memory.md section 8 (R53) and the LOAD of R70: after the host has loaded up to 128 bytes, the input string a command
sees is exactly those bytes, and no output has changed. -/
def Obligations.LoadIsSeen : Prop :=
  ∀ (s : State) (bytes : List Byte), ObservableInv s → bytes.length ≤ 128 →
    ∃ t, serve (loadScript bytes) s = .next t ∧ HoldsInput t bytes ∧
      t = { s with ibuf := t.ibuf, ilen := t.ilen } ∧
      ∀ a, bytes.length ≤ a → Memory.read t.ibuf a = Memory.read s.ibuf a

/-- R19: CFG reads 0x80801406 in every state, and a write to it changes nothing. -/
def Obligations.ConfigurationConstant : Prop :=
  (∀ s : State, readRegister 0x07#8 s = 0x80801406#32) ∧
  (∀ (s : State) (v : Nat), perform (.writeReg 0x07#8 v) s = .next s) ∧
  (readRegister 0x07#8 State.reset).extractLsb' 0 8 = BitVec.ofNat 8 Config.digits ∧
  (readRegister 0x07#8 State.reset).extractLsb' 8 8 = BitVec.ofNat 8 Config.digestLen ∧
  (readRegister 0x07#8 State.reset).extractLsb' 16 8 = BitVec.ofNat 8 Config.ibufCap ∧
  (readRegister 0x07#8 State.reset).extractLsb' 24 8 = BitVec.ofNat 8 Config.obufCap

/-- 70_reset_and_hazards.md section 1 (R180): the platform's reset puts every piece of state to its reset value, as CLR does.
That the host's own lists stay is the model's choice (log 8). -/
def Obligations.ResetEventRestoresReset : Prop :=
  ∀ s : State, perform .reset s = .next { State.reset with pending := s.pending, replies := s.replies } ∧
    perform .reset s = exec .clr s

/-! ## The environment -/

/-- R143: the 8 bytes are the digits of the step to base 256, most significant first; byte j is (T >> 8(7-j)) & 0xFF. -/
def Obligations.CounterIsBigEndian : Prop :=
  ∀ step : Nat, step < 2 ^ 64 → (be64 step).length = 8 ∧ bytesNumber (be64 step) = step ∧
    ∀ j, j < 8 → ((be64 step).getD j 0x00#8).toNat = (step >>> (8 * (7 - j))) &&& 0xFF

/-- 45_environment_totp_engine.md section 3 (R145): for a decodable secret of at most 128 characters and a step below 2^64,
getCode is the six digits of the truncation of HMAC_SHA1 of the decoded key and the counter, whatever state the instance
was in, and it leaves the instance cleared. It holds whatever function HMAC_SHA1 is (log 11). -/
def Obligations.GetCodeOfDecodableSecret : Prop :=
  ∀ (s : State) (groups : List (BitVec 5)) (p step : Nat), ObservableInv s → groups ≠ [] → groups.length + p ≤ 128 →
    step < 2 ^ 64 →
    getCode (groups.map alpha ++ List.replicate p 0x3D#8) step s =
      (.ok (sixDigits (digestCode (fun i => (Config.hmacSha1 (decodedForm groups) (be64 step)).toList.getD i 0x00#8)
        % 1000000)),
       { State.reset with pending := s.pending, replies := s.replies })

/-- 45_environment_totp_engine.md section 3 (R146): a secret that is longer than IBUF, or has no data symbol, or has a byte
outside the alphabet before its pad run, gives InvalidSecret, whatever the time step. What the host loads of a secret longer
than IBUF (log 13), and that InvalidSecret comes first for a step that has no meaning (log 14), are the model's choice. -/
def Obligations.GetCodeOfUndecodableSecret : Prop :=
  ∀ (s : State) (secret : List Byte) (step : Int), ObservableInv s →
    (128 < secret.length ∨ (∀ c ∈ secret, c = 0x3D#8) ∨
      ∃ (before after : List Byte) (c : Byte), secret = before ++ c :: after ∧ ¬ InAlphabet c ∧
        (c ≠ 0x3D#8 ∨ ∃ d ∈ after, d ≠ 0x3D#8)) →
    (getCode secret step s).1 = .error .invalidSecret

/-- 45_environment_totp_engine.md section 5 (R150): the comparison is true exactly for equal strings. -/
def Obligations.ComparisonIsEquality : Prop :=
  ∀ a b : List Byte, constantTimeEq a b = true ↔ a = b

/-- 45_environment_totp_engine.md section 5 (R149): a candidate of the wrong length is rejected at once; else, where no step of
the window is negative, verifyCode says whether some step of the window has that code. It holds whatever function
HMAC_SHA1 is (log 11); negative steps have no meaning (log 14). -/
def Obligations.VerifyCodeScansWindow : Prop :=
  ∀ (s : State) (groups : List (BitVec 5)) (p : Nat) (candidate : List Byte) (discrepancy unixTime : Nat),
    ObservableInv s → groups ≠ [] → groups.length + p ≤ 128 →
    discrepancy ≤ unixTime / 30 → unixTime / 30 + discrepancy < 2 ^ 64 →
    ∃ b, (verifyCode (groups.map alpha ++ List.replicate p 0x3D#8) candidate discrepancy unixTime s).1 = .ok b ∧
      (b = true ↔ candidate.length = 6 ∧ ∃ step : Nat, unixTime / 30 - discrepancy ≤ step ∧
        step ≤ unixTime / 30 + discrepancy ∧
        (getCode (groups.map alpha ++ List.replicate p 0x3D#8) step s).1 = .ok candidate)

/-- 45_environment_totp_engine.md section 5 (R149) and 90_conflicts.md C5: verifyCode of an undecodable secret (longer than
IBUF, or without a data symbol, or with a byte outside the alphabet before its pad run) is false. What the host loads of a
secret longer than IBUF (log 13), and that the answer is false also where the window holds steps without a meaning (log 14),
are the model's choice. -/
def Obligations.VerifyCodeOfUndecodableSecret : Prop :=
  ∀ (s : State) (secret candidate : List Byte) (discrepancy unixTime : Nat), ObservableInv s →
    (128 < secret.length ∨ (∀ c ∈ secret, c = 0x3D#8) ∨
      ∃ (before after : List Byte) (c : Byte), secret = before ++ c :: after ∧ ¬ InAlphabet c ∧
        (c ≠ 0x3D#8 ∨ ∃ d ∈ after, d ≠ 0x3D#8)) →
    (verifyCode secret candidate discrepancy unixTime s).1 = .ok false

/-- 45_environment_totp_engine.md section 4 (R147, R148): createSecret of a length in [16, 128] is the projection of the drawn
bytes, for every draw, and leaves the instance cleared; without a secure source, and for any other integer, it fails and
leaves the instance alone; without a length it gives 16 characters. -/
def Obligations.CreateSecretProjects : Prop :=
  ∀ s : State, ObservableInv s →
    (∀ length : Nat, 16 ≤ length → length ≤ 128 →
      (∀ draw : Nat → Byte, createSecret length (some draw) s =
        (.ok ((List.range length).map fun i => alpha ((draw i).setWidth 5)),
         { State.reset with pending := s.pending, replies := s.replies })) ∧
      createSecret length none s = (.error .insecureRandomSource, s)) ∧
    (∀ length : Int, length < 16 ∨ 128 < length → ∀ draw, createSecret length draw s = (.error .invalidParameter, s)) ∧
    (∀ draw : Nat → Byte, createSecretDefault (some draw) s =
      (.ok ((List.range 16).map fun i => alpha ((draw i).setWidth 5)),
       { State.reset with pending := s.pending, replies := s.replies })) ∧
    createSecretDefault none s = (.error .insecureRandomSource, s)

/-- 45_environment_totp_engine.md section 5 (R149, R151 property 7): without a discrepancy, verifyCode says whether the
candidate is the code of the current step or of one of its two neighbours, and it accepts the current code. It holds whatever
function HMAC_SHA1 is (log 11); a clock below 30 has a negative neighbour step, which has no meaning (log 14). -/
def Obligations.VerifyCodeDefaultWindow : Prop :=
  ∀ (s : State) (groups : List (BitVec 5)) (p unixTime : Nat), ObservableInv s → groups ≠ [] → groups.length + p ≤ 128 →
    30 ≤ unixTime → unixTime / 30 + 1 < 2 ^ 64 →
    (∀ candidate : List Byte,
      ∃ b, (verifyCodeDefault (groups.map alpha ++ List.replicate p 0x3D#8) candidate unixTime s).1 = .ok b ∧
        (b = true ↔
          (getCode (groups.map alpha ++ List.replicate p 0x3D#8) (unixTime / 30 - 1 : Nat) s).1 = .ok candidate ∨
          (getCode (groups.map alpha ++ List.replicate p 0x3D#8) (unixTime / 30 : Nat) s).1 = .ok candidate ∨
          (getCode (groups.map alpha ++ List.replicate p 0x3D#8) (unixTime / 30 + 1 : Nat) s).1 = .ok candidate)) ∧
    ∃ code, (getCodeNow (groups.map alpha ++ List.replicate p 0x3D#8) unixTime s).1 = .ok code ∧
      (verifyCodeDefault (groups.map alpha ++ List.replicate p 0x3D#8) code unixTime s).1 = .ok true
end

