-- ==== Sys2Proof/Laws/Memory.lean ====
section
/-! SUPPORT. The buffers: reads after writes, whole-buffer writes, byte strings, and that every operation keeps the canonical
form (log 9). -/

namespace Sys2Proof.Machine

@[simp] theorem Memory.read_nil (a : Nat) : Memory.read [] a = 0x00#8 := rfl

theorem Memory.read_cons (a b : Nat) (v : Byte) (m : Memory) :
    Memory.read ((b, v) :: m) a = if a = b then v else Memory.read m a := rfl

@[simp] theorem Memory.wfFrom_nil (cap low : Nat) : Memory.wfFrom cap low [] = true := rfl

theorem Memory.wfFrom_cons (cap low a : Nat) (v : Byte) (m : Memory) :
    Memory.wfFrom cap low ((a, v) :: m) = true ↔
      low ≤ a ∧ a < cap ∧ v ≠ 0x00#8 ∧ Memory.wfFrom cap (a + 1) m = true := by
  simp [Memory.wfFrom, and_assoc]

/-- A lower bound on the indices may be lowered. -/
theorem Memory.wfFrom_mono {cap low low' : Nat} {m : Memory} (h : Memory.wfFrom cap low m = true) (hl : low' ≤ low) :
    Memory.wfFrom cap low' m = true := by
  cases m with
  | nil => rfl
  | cons c m =>
    obtain ⟨a, v⟩ := c
    rw [Memory.wfFrom_cons] at h ⊢
    exact ⟨by omega, h.2⟩

/-- Below its lowest index a canonical buffer reads 0x00. -/
theorem Memory.read_below {cap : Nat} {m : Memory} :
    ∀ {low : Nat}, Memory.wfFrom cap low m = true → ∀ {a : Nat}, a < low → Memory.read m a = 0x00#8 := by
  induction m with
  | nil => intros; rfl
  | cons c m ih =>
    obtain ⟨b, u⟩ := c
    intro low h a ha
    rw [Memory.wfFrom_cons] at h
    rw [Memory.read_cons, if_neg (by omega)]
    exact ih h.2.2.2 (by omega)

/-- Above its capacity a canonical buffer reads 0x00. -/
theorem Memory.read_above {cap : Nat} {m : Memory} :
    ∀ {low : Nat}, Memory.wfFrom cap low m = true → ∀ {a : Nat}, cap ≤ a → Memory.read m a = 0x00#8 := by
  induction m with
  | nil => intros; rfl
  | cons c m ih =>
    obtain ⟨b, u⟩ := c
    intro low h a ha
    rw [Memory.wfFrom_cons] at h
    rw [Memory.read_cons, if_neg (by omega)]
    exact ih h.2.2.2 ha

/-- Putting a cell before the cells of a canonical buffer keeps the form. -/
theorem Memory.cons_wfFrom {cap low a : Nat} {v : Byte} {m : Memory} (h : Memory.wfFrom cap (a + 1) m = true)
    (hl : low ≤ a) (ha : a < cap) : Memory.wfFrom cap low (Memory.cons a v m) = true := by
  by_cases hv : v = 0x00#8
  · simpa [Memory.cons, hv] using Memory.wfFrom_mono h (by omega)
  · simp only [Memory.cons, hv, if_false, Memory.wfFrom_cons]
    exact ⟨hl, ha, hv, h⟩

theorem Memory.read_cons_op {cap a b : Nat} {v : Byte} {m : Memory} (h : Memory.wfFrom cap (b + 1) m = true) :
    Memory.read (Memory.cons b v m) a = if a = b then v else Memory.read m a := by
  by_cases hv : v = 0x00#8
  · simp only [Memory.cons, hv, if_true]
    split
    · next hab => exact Memory.read_below h (by omega)
    · rfl
  · simp [Memory.cons, hv, Memory.read_cons]

/-- A write keeps the canonical form. -/
theorem Memory.write_wfFrom {cap a : Nat} {v : Byte} {m : Memory} (ha : a < cap) :
    ∀ {low : Nat}, Memory.wfFrom cap low m = true → low ≤ a → Memory.wfFrom cap low (Memory.write m a v) = true := by
  induction m with
  | nil => intro low _ hl; exact Memory.cons_wfFrom rfl hl ha
  | cons c m ih =>
    obtain ⟨b, u⟩ := c
    intro low h hl
    rw [Memory.wfFrom_cons] at h
    obtain ⟨hb, hbc, hu, hm⟩ := h
    rw [Memory.write]
    split
    · next hab => exact Memory.cons_wfFrom ((Memory.wfFrom_cons ..).2 ⟨by omega, hbc, hu, hm⟩) hl ha
    · split
      · next hab => subst hab; exact Memory.cons_wfFrom hm hl ha
      · exact (Memory.wfFrom_cons ..).2 ⟨hb, hbc, hu, ih hm (by omega)⟩

/-- What a canonical buffer reads after a write: the byte at its index, every other index as before. -/
theorem Memory.read_write_from {cap a x : Nat} {v : Byte} {m : Memory} :
    ∀ {low : Nat}, Memory.wfFrom cap low m = true →
      Memory.read (Memory.write m a v) x = if x = a then v else Memory.read m x := by
  induction m with
  | nil => intro _ _; exact Memory.read_cons_op (cap := cap) rfl
  | cons c m ih =>
    obtain ⟨b, u⟩ := c
    intro low h
    rw [Memory.wfFrom_cons] at h
    obtain ⟨hb, hbc, hu, hm⟩ := h
    rw [Memory.write]
    split
    · next hab => exact Memory.read_cons_op (cap := cap) ((Memory.wfFrom_cons ..).2 ⟨by omega, hbc, hu, hm⟩)
    · split
      · next hab =>
        subst hab
        rw [Memory.read_cons_op hm, Memory.read_cons]
        split <;> rfl
      · next hlt hne =>
        rw [Memory.read_cons, ih hm, Memory.read_cons]
        split
        · next hxb => rw [if_neg (by omega)]
        · rfl

theorem Memory.write_wf {cap a : Nat} {v : Byte} {m : Memory} (h : Memory.wf cap m = true) (ha : a < cap) :
    Memory.wf cap (Memory.write m a v) = true := Memory.write_wfFrom ha h (Nat.zero_le a)

theorem Memory.read_write {cap : Nat} {m : Memory} (h : Memory.wf cap m = true) (a x : Nat) (v : Byte) :
    Memory.read (Memory.write m a v) x = if x = a then v else Memory.read m x := Memory.read_write_from h

theorem Memory.read_write_same {cap : Nat} {m : Memory} (h : Memory.wf cap m = true) (a : Nat) (v : Byte) :
    Memory.read (Memory.write m a v) a = v := by rw [Memory.read_write h, if_pos rfl]

theorem Memory.read_write_other {cap : Nat} {m : Memory} (h : Memory.wf cap m = true) {a x : Nat} (hx : x ≠ a) (v : Byte) :
    Memory.read (Memory.write m a v) x = Memory.read m x := by rw [Memory.read_write h, if_neg hx]

/-- A whole-buffer write gives the canonical form. -/
theorem Memory.ofBytesFrom_wfFrom {cap : Nat} (bytes : List Byte) :
    ∀ {a : Nat}, a + bytes.length ≤ cap → Memory.wfFrom cap a (Memory.ofBytesFrom a bytes) = true := by
  induction bytes with
  | nil => intros; rfl
  | cons v bytes ih =>
    intro a h
    simp only [List.length_cons] at h
    exact Memory.cons_wfFrom (ih (by omega)) (Nat.le_refl a) (by omega)

theorem Memory.ofBytes_wf {cap : Nat} {bytes : List Byte} (h : bytes.length ≤ cap) :
    Memory.wf cap (Memory.ofBytes bytes) = true := Memory.ofBytesFrom_wfFrom bytes (by omega)

theorem Memory.read_ofBytesFrom (bytes : List Byte) :
    ∀ (a i : Nat), Memory.read (Memory.ofBytesFrom a bytes) (a + i) = bytes.getD i 0x00#8 := by
  induction bytes with
  | nil => intro a i; rfl
  | cons v bytes ih =>
    intro a i
    rw [Memory.ofBytesFrom, Memory.read_cons_op (Memory.ofBytesFrom_wfFrom bytes (Nat.le_refl _))]
    cases i with
    | zero => simp
    | succ i =>
      have := ih (a + 1) i
      rw [if_neg (by omega), show a + (i + 1) = a + 1 + i by omega, this]
      simp

/-- A whole-buffer write reads back as its bytes, and 0x00 above them (R137). -/
@[simp] theorem Memory.read_ofBytes (bytes : List Byte) (i : Nat) :
    Memory.read (Memory.ofBytes bytes) i = bytes.getD i 0x00#8 := by
  have h := Memory.read_ofBytesFrom bytes 0 i
  rwa [Nat.zero_add] at h

@[simp] theorem Memory.length_bytesFrom (m : Memory) (n : Nat) : ∀ a, (Memory.bytesFrom m a n).length = n := by
  induction n with
  | zero => intro a; rfl
  | succ n ih => intro a; simp [Memory.bytesFrom, ih]

theorem Memory.getElem_bytesFrom (m : Memory) (n : Nat) :
    ∀ (a i : Nat) (h : i < (Memory.bytesFrom m a n).length), (Memory.bytesFrom m a n)[i] = Memory.read m (a + i) := by
  induction n with
  | zero => intro a i h; simp at h
  | succ n ih =>
    intro a i h
    cases i with
    | zero => rfl
    | succ i =>
      simp only [Memory.bytesFrom, List.getElem_cons_succ]
      rw [ih, show a + (i + 1) = a + 1 + i by omega]

/-- Two buffers that read alike on a range give the same byte string of that range. -/
theorem Memory.bytesFrom_congr {m m' : Memory} (n : Nat) :
    ∀ {a : Nat}, (∀ i, i < n → Memory.read m (a + i) = Memory.read m' (a + i)) →
      Memory.bytesFrom m a n = Memory.bytesFrom m' a n := by
  intro a h
  apply List.ext_getElem
  · simp
  · intro i hi _
    rw [Memory.getElem_bytesFrom, Memory.getElem_bytesFrom]
    exact h i (by simpa using hi)

end Sys2Proof.Machine
end

