-- ==== Sys2Proof/Laws/State.lean ====
section
/-! SUPPORT. What each named update of the state does to each field: one lemma per field per update. -/

namespace Sys2Proof.Machine

/-! ### succeed: Successful completion (R137). -/

@[simp] theorem succeed_ibuf (r : Result) (s : State) : (succeed r s).ibuf = s.ibuf := rfl
@[simp] theorem succeed_ilen (r : Result) (s : State) : (succeed r s).ilen = s.ilen := rfl
@[simp] theorem succeed_obuf (r : Result) (s : State) : (succeed r s).obuf = Memory.ofBytes r.bytes := rfl
@[simp] theorem succeed_olen (r : Result) (s : State) : (succeed r s).olen = BitVec.ofNat 8 r.bytes.length := rfl
@[simp] theorem succeed_status (r : Result) (s : State) : (succeed r s).status = successStatus := rfl
@[simp] theorem succeed_offset (r : Result) (s : State) : (succeed r s).offset = r.offset := rfl
@[simp] theorem succeed_dbc (r : Result) (s : State) : (succeed r s).dbc = r.dbc := rfl
@[simp] theorem succeed_value (r : Result) (s : State) : (succeed r s).value = r.value := rfl
@[simp] theorem succeed_pending (r : Result) (s : State) : (succeed r s).pending = s.pending := rfl
@[simp] theorem succeed_replies (r : Result) (s : State) : (succeed r s).replies = s.replies := rfl

/-! ### fail: Failed completion (R165). -/

@[simp] theorem fail_ibuf (f : Failure) (s : State) : (fail f s).ibuf = s.ibuf := rfl
@[simp] theorem fail_ilen (f : Failure) (s : State) : (fail f s).ilen = s.ilen := rfl
@[simp] theorem fail_obuf (f : Failure) (s : State) : (fail f s).obuf = [] := rfl
@[simp] theorem fail_olen (f : Failure) (s : State) : (fail f s).olen = 0x00#8 := rfl
@[simp] theorem fail_status (f : Failure) (s : State) : (fail f s).status = failureStatus f := rfl
@[simp] theorem fail_offset (f : Failure) (s : State) : (fail f s).offset = 0x00#8 := rfl
@[simp] theorem fail_dbc (f : Failure) (s : State) : (fail f s).dbc = 0#32 := rfl
@[simp] theorem fail_value (f : Failure) (s : State) : (fail f s).value = 0#32 := rfl
@[simp] theorem fail_pending (f : Failure) (s : State) : (fail f s).pending = s.pending := rfl
@[simp] theorem fail_replies (f : Failure) (s : State) : (fail f s).replies = s.replies := rfl

/-! ### clearBlock: CLR and reset (R138, R180). -/

@[simp] theorem clearBlock_ibuf (s : State) : (clearBlock s).ibuf = [] := rfl
@[simp] theorem clearBlock_ilen (s : State) : (clearBlock s).ilen = 0x00#8 := rfl
@[simp] theorem clearBlock_obuf (s : State) : (clearBlock s).obuf = [] := rfl
@[simp] theorem clearBlock_olen (s : State) : (clearBlock s).olen = 0x00#8 := rfl
@[simp] theorem clearBlock_status (s : State) : (clearBlock s).status = 0x00#8 := rfl
@[simp] theorem clearBlock_offset (s : State) : (clearBlock s).offset = 0x00#8 := rfl
@[simp] theorem clearBlock_dbc (s : State) : (clearBlock s).dbc = 0#32 := rfl
@[simp] theorem clearBlock_value (s : State) : (clearBlock s).value = 0#32 := rfl
@[simp] theorem clearBlock_pending (s : State) : (clearBlock s).pending = s.pending := rfl
@[simp] theorem clearBlock_replies (s : State) : (clearBlock s).replies = s.replies := rfl

/-! ### storeIbuf: A host write to IBUF (R41). -/

@[simp] theorem storeIbuf_ibuf (i : Nat) (b : Byte) (s : State) : (storeIbuf i b s).ibuf = Memory.write s.ibuf i b := rfl
@[simp] theorem storeIbuf_ilen (i : Nat) (b : Byte) (s : State) : (storeIbuf i b s).ilen = s.ilen := rfl
@[simp] theorem storeIbuf_obuf (i : Nat) (b : Byte) (s : State) : (storeIbuf i b s).obuf = s.obuf := rfl
@[simp] theorem storeIbuf_olen (i : Nat) (b : Byte) (s : State) : (storeIbuf i b s).olen = s.olen := rfl
@[simp] theorem storeIbuf_status (i : Nat) (b : Byte) (s : State) : (storeIbuf i b s).status = s.status := rfl
@[simp] theorem storeIbuf_offset (i : Nat) (b : Byte) (s : State) : (storeIbuf i b s).offset = s.offset := rfl
@[simp] theorem storeIbuf_dbc (i : Nat) (b : Byte) (s : State) : (storeIbuf i b s).dbc = s.dbc := rfl
@[simp] theorem storeIbuf_value (i : Nat) (b : Byte) (s : State) : (storeIbuf i b s).value = s.value := rfl
@[simp] theorem storeIbuf_pending (i : Nat) (b : Byte) (s : State) : (storeIbuf i b s).pending = s.pending := rfl
@[simp] theorem storeIbuf_replies (i : Nat) (b : Byte) (s : State) : (storeIbuf i b s).replies = s.replies := rfl

/-! ### setIlen: A host write to ILEN (R41). -/

@[simp] theorem setIlen_ibuf (n : BitVec 8) (s : State) : (setIlen n s).ibuf = s.ibuf := rfl
@[simp] theorem setIlen_ilen (n : BitVec 8) (s : State) : (setIlen n s).ilen = n := rfl
@[simp] theorem setIlen_obuf (n : BitVec 8) (s : State) : (setIlen n s).obuf = s.obuf := rfl
@[simp] theorem setIlen_olen (n : BitVec 8) (s : State) : (setIlen n s).olen = s.olen := rfl
@[simp] theorem setIlen_status (n : BitVec 8) (s : State) : (setIlen n s).status = s.status := rfl
@[simp] theorem setIlen_offset (n : BitVec 8) (s : State) : (setIlen n s).offset = s.offset := rfl
@[simp] theorem setIlen_dbc (n : BitVec 8) (s : State) : (setIlen n s).dbc = s.dbc := rfl
@[simp] theorem setIlen_value (n : BitVec 8) (s : State) : (setIlen n s).value = s.value := rfl
@[simp] theorem setIlen_pending (n : BitVec 8) (s : State) : (setIlen n s).pending = s.pending := rfl
@[simp] theorem setIlen_replies (n : BitVec 8) (s : State) : (setIlen n s).replies = s.replies := rfl

/-! ### reply: A host read (R41). -/

@[simp] theorem reply_ibuf (v : Word32) (s : State) : (reply v s).ibuf = s.ibuf := rfl
@[simp] theorem reply_ilen (v : Word32) (s : State) : (reply v s).ilen = s.ilen := rfl
@[simp] theorem reply_obuf (v : Word32) (s : State) : (reply v s).obuf = s.obuf := rfl
@[simp] theorem reply_olen (v : Word32) (s : State) : (reply v s).olen = s.olen := rfl
@[simp] theorem reply_status (v : Word32) (s : State) : (reply v s).status = s.status := rfl
@[simp] theorem reply_offset (v : Word32) (s : State) : (reply v s).offset = s.offset := rfl
@[simp] theorem reply_dbc (v : Word32) (s : State) : (reply v s).dbc = s.dbc := rfl
@[simp] theorem reply_value (v : Word32) (s : State) : (reply v s).value = s.value := rfl
@[simp] theorem reply_pending (v : Word32) (s : State) : (reply v s).pending = s.pending := rfl
@[simp] theorem reply_replies (v : Word32) (s : State) : (reply v s).replies = s.replies ++ [v] := rfl

/-! ### setPending: Taking an event from the port (R51). -/

@[simp] theorem setPending_ibuf (events : List PortEvent) (s : State) : (setPending events s).ibuf = s.ibuf := rfl
@[simp] theorem setPending_ilen (events : List PortEvent) (s : State) : (setPending events s).ilen = s.ilen := rfl
@[simp] theorem setPending_obuf (events : List PortEvent) (s : State) : (setPending events s).obuf = s.obuf := rfl
@[simp] theorem setPending_olen (events : List PortEvent) (s : State) : (setPending events s).olen = s.olen := rfl
@[simp] theorem setPending_status (events : List PortEvent) (s : State) : (setPending events s).status = s.status := rfl
@[simp] theorem setPending_offset (events : List PortEvent) (s : State) : (setPending events s).offset = s.offset := rfl
@[simp] theorem setPending_dbc (events : List PortEvent) (s : State) : (setPending events s).dbc = s.dbc := rfl
@[simp] theorem setPending_value (events : List PortEvent) (s : State) : (setPending events s).value = s.value := rfl
@[simp] theorem setPending_pending (events : List PortEvent) (s : State) : (setPending events s).pending = events := rfl
@[simp] theorem setPending_replies (events : List PortEvent) (s : State) : (setPending events s).replies = s.replies := rfl

end Sys2Proof.Machine
end

