-- ==== Sys2Proof/Laws/Commands.lean ====
section
/-! SUPPORT. What each command's arm is, the ways a command completes, and the operand a command reads: one lemma per shared
operation, to be cited in place of its definition. -/

namespace Sys2Proof.Machine

/-! ### The arms -/

theorem exec_clr (s : State) : exec .clr s = .next (clearBlock s) := rfl

theorem exec_b32dec (s : State) : exec .b32dec s = .next (finish ((inputOperand s).bind decodeText) s) := rfl

theorem exec_b32enc (p : Bool) (s : State) :
    exec (.b32enc p) s = .next (finish ((inputOperand s).bind (encodeBytes p)) s) := rfl

theorem exec_b32proj (s : State) : exec .b32proj s = .next (finish ((inputOperand s).bind projectBytes) s) := rfl

theorem exec_b32lut (p : Bool) (s : State) : exec (.b32lut p) s = .next (finish (.ok { bytes := lookupTable p }) s) := rfl

theorem exec_truncfmt (s : State) : exec .truncfmt s = .next (finish (truncateDigest s) s) := rfl

/-! ### Completion -/

@[simp] theorem finish_ok (r : Result) (s : State) : finish (.ok r) s = succeed r s := rfl

@[simp] theorem finish_error (f : Failure) (s : State) : finish (.error f) s = fail f s := rfl

/-- Every completion writes the outputs and keeps the inputs: the frame of R137 and R165 (log 1, log 3 for the port). -/
theorem finish_keeps (o : Except Failure Result) (s : State) : InputKept s (finish o s) := by
  cases o <;> exact ⟨fun _ => rfl, rfl, rfl, rfl, rfl⟩

/-- A success shows its result (R137). -/
theorem succeed_shows (r : Result) (s : State) (h : r.bytes.length < 256) :
    ShowsSuccess (succeed r s) r.bytes r.offset r.dbc r.value := by
  refine ⟨rfl, ?_, fun i => ?_, rfl, rfl, rfl⟩
  · simp [Nat.mod_eq_of_lt h]
  · rw [succeed_obuf, Memory.read_ofBytes]

/-- A failure shows its code and an all-zero output (R165). -/
theorem fail_shows (f : Failure) (s : State) : ShowsFailure (fail f s) (failureStatus f) :=
  ⟨rfl, rfl, fun _ => rfl, rfl, rfl, rfl⟩

/-- STATUS after each failure (R160). -/
@[simp] theorem failureStatus_invalidEncoding : failureStatus .invalidEncoding = 0x07#8 := by decide

@[simp] theorem failureStatus_badLength : failureStatus .badLength = 0x0B#8 := by decide

@[simp] theorem failureStatus_illegalCmd : failureStatus .illegalCmd = 0x0F#8 := by decide

/-! ### The operand -/

@[simp] theorem length_inputString (s : State) : (inputString s).length = s.ilen.toNat := by simp [inputString]

theorem getElem_inputString (s : State) (i : Nat) (h : i < (inputString s).length) :
    (inputString s)[i] = Memory.read s.ibuf i := by
  have := Memory.getElem_bytesFrom s.ibuf s.ilen.toNat 0 i (by simpa using h)
  rwa [Nat.zero_add] at this

/-- The input string of a state that holds `bytes` is `bytes` (R11). -/
theorem inputString_of_holds {s : State} {bytes : List Byte} (h : HoldsInput s bytes) : inputString s = bytes := by
  obtain ⟨hlen, -, hread⟩ := h
  apply List.ext_getElem
  · simp [hlen]
  · intro i hi hi'
    rw [getElem_inputString, hread i hi']
    simp [hi']

/-- The operand of a state that holds `bytes` (R12, R55). -/
theorem inputOperand_of_holds {s : State} {bytes : List Byte} (h : HoldsInput s bytes) : inputOperand s = .ok bytes := by
  have hfit : ¬ Config.ibufCap < s.ilen.toNat := by have h₁ := h.1; have h₂ := h.2.1; omega
  rw [inputOperand, if_neg hfit, inputString_of_holds h]

/-- A state whose ILEN fits IBUF holds its own input string. -/
theorem holdsInput_inputString {s : State} (h : s.ilen.toNat ≤ Config.ibufCap) : HoldsInput s (inputString s) := by
  refine ⟨by simp, by simpa using h, fun i hi => ?_⟩
  rw [List.getD_eq_getElem _ _ hi, getElem_inputString]

/-- ILEN above IBUF_CAP raises BAD_LENGTH (R162). -/
theorem inputOperand_of_too_long {s : State} (h : Config.ibufCap < s.ilen.toNat) :
    inputOperand s = .error .badLength := by rw [inputOperand, if_pos h]

end Sys2Proof.Machine
end

