-- ==== Sys2Proof/Laws/Numbers.lean ====
section
/-! SUPPORT. The arithmetic behind the closed forms of R85 and R104: digits of a number and shifts of congruent numbers. -/

namespace Sys2Proof.Machine

theorem groupsNumber_append (groups : List (BitVec 5)) (v : BitVec 5) :
    groupsNumber (groups ++ [v]) = groupsNumber groups * 32 + v.toNat := by simp [groupsNumber]

theorem bytesNumber_append (bytes : List Byte) (b : Byte) :
    bytesNumber (bytes ++ [b]) = bytesNumber bytes * 256 + b.toNat := by simp [bytesNumber]

theorem bytesNumber_lt (bytes : List Byte) : bytesNumber bytes < 256 ^ bytes.length := by
  induction bytes using List.reverseRecOn with
  | nil => simp [bytesNumber]
  | append_singleton bytes b ih =>
    have := b.isLt
    rw [bytesNumber_append]
    simp [Nat.pow_succ]
    omega

@[simp] theorem length_decodedForm (groups : List (BitVec 5)) :
    (decodedForm groups).length = 5 * groups.length / 8 := by simp [decodedForm]

@[simp] theorem length_encodedForm (bytes : List Byte) :
    (encodedForm bytes).length = symbolCount bytes.length := by simp [encodedForm]

@[simp] theorem length_sixDigits (value : Nat) : (sixDigits value).length = 6 := by simp [sixDigits]

/-- Appending the same low digit keeps a congruence modulo a power of two, `k` bits higher. -/
theorem mul_pow_add_mod {a b n : Nat} (k x : Nat) (h : a % 2 ^ n = b % 2 ^ n) :
    (a * 2 ^ k + x) % 2 ^ (n + k) = (b * 2 ^ k + x) % 2 ^ (n + k) := by
  have : (a * 2 ^ k) % 2 ^ (n + k) = (b * 2 ^ k) % 2 ^ (n + k) := by
    rw [Nat.pow_add, Nat.mul_mod_mul_right, Nat.mul_mod_mul_right, h]
  exact Nat.ModEq.add_right x this

/-- Numbers that agree on their low `k + n` bits agree on the `n` bits above bit `k`. -/
theorem shiftRight_mod {a b k : Nat} (n : Nat) (h : a % 2 ^ (k + n) = b % 2 ^ (k + n)) :
    (a >>> k) % 2 ^ n = (b >>> k) % 2 ^ n := by
  have cut : ∀ c : Nat, (c >>> k) % 2 ^ n = (c % 2 ^ (k + n)) >>> k := by
    intro c
    rw [Nat.shiftRight_eq_div_pow, Nat.shiftRight_eq_div_pow, Nat.pow_add, Nat.mod_mul_right_div_self]
  rw [cut, cut, h]

/-- A low digit below 2^k does not reach the bits above bit `k + r`. -/
theorem mul_pow_add_shiftRight {a x k : Nat} (r : Nat) (hx : x < 2 ^ k) : (a * 2 ^ k + x) >>> (k + r) = a >>> r := by
  rw [Nat.shiftRight_add]
  congr 1
  rw [Nat.shiftRight_eq_div_pow, Nat.mul_comm, Nat.mul_add_div (by positivity), Nat.div_eq_of_lt hx, Nat.add_zero]

/-- The fill bits of R104 shift out again. -/
theorem shiftLeft_shiftRight_add (a k r : Nat) : (a <<< k) >>> (k + r) = a >>> r := by
  rw [Nat.shiftLeft_eq, Nat.shiftRight_add]
  congr 1
  rw [Nat.shiftRight_eq_div_pow, Nat.mul_div_cancel _ (by positivity)]

/-- One more group in the closed form of decoding: a byte more when 8 bits are there, none otherwise (R83, R84). -/
theorem decodedForm_append (groups : List (BitVec 5)) (v : BitVec 5) :
    decodedForm (groups ++ [v]) =
      if 8 ≤ 5 * groups.length % 8 + 5 then
        decodedForm groups ++ [BitVec.ofNat 8 (groupsNumber (groups ++ [v]) >>> (5 * groups.length % 8 + 5 - 8))]
      else decodedForm groups := by
  have old : ∀ j, j < 5 * groups.length / 8 →
      groupsNumber (groups ++ [v]) >>> (5 * (groups ++ [v]).length - 8 * (j + 1)) =
        groupsNumber groups >>> (5 * groups.length - 8 * (j + 1)) := by
    intro j hj
    rw [groupsNumber_append, List.length_append, List.length_singleton,
      show 5 * (groups.length + 1) - 8 * (j + 1) = 5 + (5 * groups.length - 8 * (j + 1)) by omega]
    exact mul_pow_add_shiftRight (k := 5) _ v.isLt
  unfold decodedForm
  split
  · next h =>
    have hlen : 5 * (groups ++ [v]).length / 8 = 5 * groups.length / 8 + 1 := by
      rw [List.length_append, List.length_singleton]
      omega
    rw [hlen, List.range_succ, List.map_append]
    congr 1
    · exact List.map_congr_left fun j hj => by rw [old j (List.mem_range.1 hj)]
    · simp only [List.map_cons, List.map_nil, List.length_append, List.length_singleton]
      congr 3
      omega
  · next h =>
    have hlen : 5 * (groups ++ [v]).length / 8 = 5 * groups.length / 8 := by
      rw [List.length_append, List.length_singleton]
      omega
    rw [hlen]
    exact List.map_congr_left fun j hj => by rw [old j (List.mem_range.1 hj)]

end Sys2Proof.Machine
end

