-- ==== Sys2Proof/Laws/Mapper.lean ====
section
/-! SUPPORT. The two group mappers: what one step does to ACC, NBITS and the emitted bytes, and that the whole mapper gives
the closed form (40_base32_decode.md R83, R85; 41_base32_encode.md R101, R104). -/

namespace Sys2Proof.Machine

/-! ### The accumulator -/

/-- Shifting `v` into the low end of ACC is arithmetic modulo 2^12. -/
theorem shiftIn_toNat {k : Nat} (acc : BitVec 12) (v : BitVec k) (hk : k ≤ 12) :
    ((acc <<< k) ||| v.setWidth 12).toNat = (acc.toNat * 2 ^ k + v.toNat) % 2 ^ 12 := by
  have hv : v.toNat < 2 ^ k := v.isLt
  have hv12 : v.toNat < 2 ^ 12 := Nat.lt_of_lt_of_le hv (Nat.pow_le_pow_right (by decide) hk)
  have disjoint : (acc <<< k) &&& v.setWidth 12 = 0#12 := by
    ext i hi
    simp only [BitVec.getElem_and, BitVec.getElem_zero, BitVec.getElem_shiftLeft, BitVec.getElem_setWidth]
    by_cases hik : i < k
    · simp [hik]
    · simp [BitVec.getLsbD_of_ge v i (by omega)]
  rw [← BitVec.add_eq_or_of_and_eq_zero _ _ disjoint, BitVec.toNat_add, BitVec.toNat_shiftLeft, BitVec.toNat_setWidth,
    Nat.mod_eq_of_lt hv12, Nat.shiftLeft_eq, Nat.mod_add_mod]

/-! ### Five to eight -/

/-- The mapper after the symbols `groups`: fewer than 8 bits are left, they are the low bits of W, and the bytes emitted are
the closed form. -/
theorem shiftSymbol_fold (groups : List (BitVec 5)) :
    (groups.foldl shiftSymbol {}).nbits = 5 * groups.length % 8 ∧
    (groups.foldl shiftSymbol {}).acc.toNat % 2 ^ (groups.foldl shiftSymbol {}).nbits =
      groupsNumber groups % 2 ^ (groups.foldl shiftSymbol {}).nbits ∧
    (groups.foldl shiftSymbol {}).out = decodedForm groups := by
  induction groups using List.reverseRecOn with
  | nil => simp [groupsNumber, decodedForm]
  | append_singleton groups v ih =>
    rw [List.foldl_append, List.foldl_cons, List.foldl_nil, decodedForm_append]
    generalize groups.foldl shiftSymbol {} = m at ih ⊢
    obtain ⟨hn, ha, ho⟩ := ih
    have hlt : m.nbits < 8 := by omega
    have hacc : ((m.acc <<< 5) ||| v.setWidth 12).toNat % 2 ^ (m.nbits + 5) =
        groupsNumber (groups ++ [v]) % 2 ^ (m.nbits + 5) := by
      rw [shiftIn_toNat _ _ (by decide), groupsNumber_append, Nat.mod_mod_of_dvd _ (Nat.pow_dvd_pow 2 (by omega))]
      exact mul_pow_add_mod 5 _ ha
    by_cases h8 : 8 ≤ m.nbits + 5
    · simp only [shiftSymbol, if_pos h8]
      have hd : 2 ^ (m.nbits + 5 - 8) ∣ 2 ^ (m.nbits + 5) := Nat.pow_dvd_pow 2 (by omega)
      refine ⟨by simp only [List.length_append, List.length_singleton]; omega, ?_, ?_⟩
      · have := congrArg (· % 2 ^ (m.nbits + 5 - 8)) hacc
        simpa only [Nat.mod_mod_of_dvd _ hd] using this
      · rw [if_pos (by omega), ho]
        congr 2
        apply BitVec.eq_of_toNat_eq
        rw [← hn]
        simp only [BitVec.toNat_setWidth, BitVec.toNat_ushiftRight, BitVec.toNat_ofNat]
        exact shiftRight_mod 8 (by rw [show m.nbits + 5 - 8 + 8 = m.nbits + 5 by omega]; exact hacc)
    · simp only [shiftSymbol, if_neg h8]
      exact ⟨by simp only [List.length_append, List.length_singleton]; omega, hacc, by rw [if_neg (by omega), ho]⟩

/-- The 5-to-8 mapper is the closed form of R85. -/
theorem groupsToBytes_eq (groups : List (BitVec 5)) : groupsToBytes groups = decodedForm groups :=
  (shiftSymbol_fold groups).2.2

/-! ### Eight to five -/

/-- The first `k` symbols of the bit string of `n` bytes whose number is `V`. -/
def leadingSymbols (V n k : Nat) : List Byte :=
  (List.range k).map fun j => alpha (BitVec.ofNat 5 (V >>> (8 * n - 5 * (j + 1))))

/-- The mapper has emitted `k` symbols of the bit string of `n` bytes whose number is `V`. -/
structure Emitted (m : Mapper) (V n k : Nat) : Prop where
  nbits : m.nbits + 5 * k = 8 * n
  acc : m.acc.toNat % 2 ^ m.nbits = V % 2 ^ m.nbits
  out : m.out = leadingSymbols V n k

theorem emitSymbol_of_lt {m : Mapper} (h : ¬ 5 ≤ m.nbits) : emitSymbol m = m := by simp [emitSymbol, h]

/-- An emission emits the next symbol (R101). -/
theorem emitSymbol_emitted {m : Mapper} {V n k : Nat} (h : Emitted m V n k) (h5 : 5 ≤ m.nbits) :
    Emitted (emitSymbol m) V n (k + 1) := by
  obtain ⟨hn, ha, ho⟩ := h
  have hd : 2 ^ (m.nbits - 5) ∣ 2 ^ m.nbits := Nat.pow_dvd_pow 2 (by omega)
  simp only [emitSymbol, if_pos h5]
  refine ⟨by simp only; omega, ?_, ?_⟩
  · have := congrArg (· % 2 ^ (m.nbits - 5)) ha
    simpa only [Nat.mod_mod_of_dvd _ hd] using this
  · simp only [ho, leadingSymbols, List.range_succ, List.map_append, List.map_cons, List.map_nil]
    congr 3
    apply BitVec.eq_of_toNat_eq
    simp only [BitVec.toNat_setWidth, BitVec.toNat_ushiftRight, BitVec.toNat_ofNat]
    rw [show 8 * n - 5 * (k + 1) = m.nbits - 5 by omega]
    exact shiftRight_mod 5 (by rw [show m.nbits - 5 + 5 = m.nbits by omega]; exact ha)

/-- A further byte does not change the symbols already emitted. -/
theorem leadingSymbols_append (bytes : List Byte) (b : Byte) :
    leadingSymbols (bytesNumber (bytes ++ [b])) (bytes.length + 1) (8 * bytes.length / 5) =
      leadingSymbols (bytesNumber bytes) bytes.length (8 * bytes.length / 5) := by
  apply List.map_congr_left
  intro j hj
  have hj := List.mem_range.1 hj
  congr 2
  rw [bytesNumber_append, show 8 * (bytes.length + 1) - 5 * (j + 1) = 8 + (8 * bytes.length - 5 * (j + 1)) by omega]
  exact mul_pow_add_shiftRight (k := 8) _ b.isLt

/-- The mapper after the bytes has emitted every whole group (R101). -/
theorem shiftByte_fold (bytes : List Byte) :
    Emitted (bytes.foldl shiftByte {}) (bytesNumber bytes) bytes.length (8 * bytes.length / 5) := by
  induction bytes using List.reverseRecOn with
  | nil => exact ⟨rfl, rfl, rfl⟩
  | append_singleton bytes b ih =>
    rw [List.foldl_append, List.foldl_cons, List.foldl_nil, List.length_append, List.length_singleton]
    generalize bytes.foldl shiftByte {} = m at ih ⊢
    obtain ⟨hn, ha, ho⟩ := ih
    have h₀ : Emitted { m with acc := (m.acc <<< 8) ||| b.setWidth 12, nbits := m.nbits + 8 }
        (bytesNumber (bytes ++ [b])) (bytes.length + 1) (8 * bytes.length / 5) := by
      refine ⟨by simp only; omega, ?_, by rw [leadingSymbols_append]; exact ho⟩
      rw [shiftIn_toNat _ _ (by decide), bytesNumber_append,
        Nat.mod_mod_of_dvd _ (Nat.pow_dvd_pow 2 (by simp only; omega))]
      exact mul_pow_add_mod 8 _ ha
    have h₁ := emitSymbol_emitted h₀ (by simp)
    unfold shiftByte
    by_cases h₂ : 5 ≤ m.nbits + 8 - 5
    · rw [show 8 * (bytes.length + 1) / 5 = 8 * bytes.length / 5 + 1 + 1 by omega]
      exact emitSymbol_emitted h₁ (by simpa [emitSymbol] using h₂)
    · rw [emitSymbol_of_lt (by simpa [emitSymbol] using h₂),
        show 8 * (bytes.length + 1) / 5 = 8 * bytes.length / 5 + 1 by omega]
      exact h₁

/-- The 8-to-5 mapper with its final partial group is the closed form of R104. -/
theorem bytesToSymbols_eq (bytes : List Byte) : bytesToSymbols bytes = encodedForm bytes := by
  have h := shiftByte_fold bytes
  unfold bytesToSymbols encodedForm symbolCount emitPartial
  generalize bytes.foldl shiftByte {} = m at h ⊢
  obtain ⟨hn, ha, ho⟩ := h
  by_cases h0 : 0 < m.nbits
  · rw [if_pos h0, show (8 * bytes.length + 4) / 5 = 8 * bytes.length / 5 + 1 by omega, List.range_succ, List.map_append]
    simp only [ho, leadingSymbols]
    congr 1
    · apply List.map_congr_left
      intro j hj
      have hj := List.mem_range.1 hj
      congr 2
      rw [show 5 * (8 * bytes.length / 5 + 1 - 1 - j) =
        (5 * (8 * bytes.length / 5 + 1) - 8 * bytes.length) + (8 * bytes.length - 5 * (j + 1)) by omega,
        shiftLeft_shiftRight_add]
    · simp only [List.map_cons, List.map_nil]
      congr 2
      apply BitVec.eq_of_toNat_eq
      simp only [BitVec.toNat_setWidth, BitVec.toNat_shiftLeft, BitVec.toNat_ofNat]
      rw [show 5 * (8 * bytes.length / 5 + 1) - 8 * bytes.length = 5 - m.nbits by omega,
        show 8 * bytes.length / 5 + 1 - 1 - 8 * bytes.length / 5 = 0 by omega,
        Nat.mod_mod_of_dvd _ (by decide), Nat.mul_zero, Nat.shiftRight_zero, Nat.shiftLeft_eq, Nat.shiftLeft_eq]
      have cut : ∀ a : Nat, a * 2 ^ (5 - m.nbits) % 2 ^ 5 = (a % 2 ^ m.nbits) * 2 ^ (5 - m.nbits) := by
        intro a
        rw [← Nat.mul_mod_mul_right, ← Nat.pow_add, show m.nbits + (5 - m.nbits) = 5 by omega]
      rw [cut, cut, ha]
  · rw [if_neg h0, show (8 * bytes.length + 4) / 5 = 8 * bytes.length / 5 by omega, ho]
    apply List.map_congr_left
    intro j hj
    have hj := List.mem_range.1 hj
    congr 2
    rw [show 5 * (8 * bytes.length / 5) - 8 * bytes.length = 0 by omega, Nat.shiftLeft_zero]
    congr 1
    omega

end Sys2Proof.Machine
end

