-- ==== Sys2Proof/Laws/Base32.lean ====
section
/-! SUPPORT. The operands of the Base32 commands: the pad run and the data symbols (40_base32_decode.md R81, R82), and what
each command answers on the string it reads. -/

namespace Sys2Proof.Machine

/-! ### Symbols -/

theorem symbolValue_alpha : ∀ v : BitVec 5, symbolValue (alpha v) = some v := by decide

theorem alpha_ne_padChar : ∀ v : BitVec 5, alpha v ≠ padChar := by decide

theorem alpha_of_symbolValue : ∀ c : Byte, ∀ v ∈ symbolValue c, alpha v = c := by decide

theorem projectByte_eq_alpha : ∀ b : Byte, projectByte b = alpha (b.setWidth 5) := by decide

/-- The values of symbols are the groups they stand for (R82). -/
theorem symbolValues_map_alpha (groups : List (BitVec 5)) : symbolValues (groups.map alpha) = some groups := by
  induction groups with
  | nil => rfl
  | cons v groups ih => simp [symbolValues, symbolValue_alpha, ih]

/-- One byte outside the alphabet and there are no values (R82). -/
theorem symbolValues_eq_none {text : List Byte} (h : ∃ c ∈ text, isAlpha c = false) : symbolValues text = none := by
  induction text with
  | nil => simp at h
  | cons c text ih =>
    obtain ⟨d, hd, hb⟩ := h
    rcases List.mem_cons.1 hd with rfl | hd
    · have : symbolValue d = none := by simpa [isAlpha] using hb
      simp [symbolValues, this]
    · simp [symbolValues, ih ⟨d, hd, hb⟩]

/-- A text of alphabet bytes is the text of its values (R67). -/
theorem symbolValues_eq_some {text : List Byte} (h : ∀ c ∈ text, isAlpha c = true) :
    ∃ groups, symbolValues text = some groups ∧ text = groups.map alpha := by
  induction text with
  | nil => exact ⟨[], rfl, rfl⟩
  | cons c text ih =>
    obtain ⟨groups, hg, ht⟩ := ih fun d hd => h d (by simp [hd])
    obtain ⟨v, hv⟩ := Option.isSome_iff_exists.1 (h c (by simp))
    exact ⟨v :: groups, by simp [symbolValues, hv, hg], by simp [← ht, alpha_of_symbolValue c v hv]⟩

/-! ### The pad run -/

theorem takeWhile_padChar (p : Nat) {text : List Byte} (h : ∀ c, text.head? = some c → c ≠ padChar) :
    (List.replicate p padChar ++ text).takeWhile (· == padChar) = List.replicate p padChar := by
  induction p with
  | zero =>
    cases text with
    | nil => rfl
    | cons c text => simpa using h
  | succ p ih => simp [List.replicate_succ, ih]

/-- The pad run of a text that does not end in PADCHAR, followed by `p` of them, is `p` (R81). -/
theorem padRun_append {text : List Byte} (p : Nat) (h : ∀ c, text.getLast? = some c → c ≠ padChar) :
    padRun (text ++ List.replicate p padChar) = p := by
  rw [padRun, List.reverse_append, List.reverse_replicate,
    takeWhile_padChar p fun c hc => h c (by simpa using hc), List.length_replicate]

/-- The data symbols of such a text are the text (R81). -/
theorem dataSymbols_append {text : List Byte} (p : Nat) (h : ∀ c, text.getLast? = some c → c ≠ padChar) :
    dataSymbols (text ++ List.replicate p padChar) = text := by
  rw [dataSymbols, padRun_append p h]
  simp

/-- Every text is its data symbols and its pad run, and the data symbols do not end in PADCHAR (R81). -/
theorem dataSymbols_split (text : List Byte) :
    text = dataSymbols text ++ List.replicate (padRun text) padChar ∧
      ∀ c, (dataSymbols text).getLast? = some c → c ≠ padChar := by
  have parts : text = (text.reverse.dropWhile (· == padChar)).reverse ++ List.replicate (padRun text) padChar := by
    have run : text.reverse.takeWhile (· == padChar) = List.replicate (padRun text) padChar := by
      refine List.eq_replicate_iff.2 ⟨rfl, fun b hb => ?_⟩
      simpa using List.mem_takeWhile_imp hb
    have := congrArg List.reverse (List.takeWhile_append_dropWhile (p := (· == padChar)) (l := text.reverse))
    rw [run, List.reverse_append, List.reverse_replicate, List.reverse_reverse] at this
    exact this.symm
  have last : ∀ c, ((text.reverse.dropWhile (· == padChar)).reverse).getLast? = some c → c ≠ padChar := by
    intro c hc
    have := List.head?_dropWhile_not (· == padChar) text.reverse
    rw [List.getLast?_reverse] at hc
    rw [hc] at this
    simpa using this
  have data : dataSymbols text = (text.reverse.dropWhile (· == padChar)).reverse := by
    have := dataSymbols_append (padRun text) last
    rwa [← parts] at this
  rw [data]
  exact ⟨parts, last⟩

/-! ### What each command answers -/

/-- A command that answers a result of at most 255 bytes completes with it (R137). -/
theorem completes_of_ok {i : Instr} {s : State} {bytes : List Byte}
    (h : exec i s = .next (finish (.ok { bytes := bytes }) s)) (hlen : bytes.length < 256) : Completes i s bytes :=
  ⟨_, h, succeed_shows _ _ hlen, finish_keeps _ _⟩

/-- A command that raises a failure completes with it (R165). -/
theorem fails_of_error {i : Instr} {s : State} {f : Failure} (h : exec i s = .next (finish (.error f) s)) :
    Fails i s (failureStatus f) :=
  ⟨_, h, fail_shows _ _, finish_keeps _ _⟩

/-- B32DEC on symbols and a pad run (R80). -/
theorem decodeText_symbols {groups : List (BitVec 5)} {p : Nat} (hg : groups ≠ []) (hlen : groups.length ≤ Config.ibufCap) :
    decodeText (groups.map alpha ++ List.replicate p padChar) = .ok { bytes := decodedForm groups } := by
  have data : dataSymbols (groups.map alpha ++ List.replicate p padChar) = groups.map alpha := by
    refine dataSymbols_append p fun c hc => ?_
    rw [List.getLast?_map, Option.map_eq_some_iff] at hc
    obtain ⟨v, -, rfl⟩ := hc
    exact alpha_ne_padChar v
  have hfit : groups.length ≤ 128 := hlen
  have hne : groups.length ≠ 0 := by simpa using hg
  simp only [decodeText, data, List.length_map, symbolValues_map_alpha, ← groupsToBytes_eq]
  have hout : ¬ 128 < 5 * groups.length / 8 := by omega
  rw [if_neg (show ¬ Config.obufCap < 5 * groups.length / 8 from hout), if_neg hne]

/-- B32ENC on up to 80 bytes (R100). -/
theorem encodeBytes_fits (p : Bool) {bytes : List Byte} (h : bytes.length ≤ 80) :
    encodeBytes p bytes =
      .ok { bytes := if p then padToBlock (encodedForm bytes) else encodedForm bytes } := by
  have hfit : ¬ 128 < encodedLength p bytes.length := by
    unfold encodedLength
    cases p <;> simp only [Bool.false_eq_true, if_false, if_true] <;> omega
  rw [encodeBytes, if_neg (show ¬ Config.obufCap < _ from hfit), bytesToSymbols_eq]

/-- The padding appended is what R103 gives by n mod 5. -/
theorem padToBlock_encodedForm (bytes : List Byte) :
    padToBlock (encodedForm bytes) = encodedForm bytes ++ List.replicate (padCount bytes.length) padChar := by
  rw [padToBlock, length_encodedForm]
  congr 2
  obtain ⟨k, r, hk, hr⟩ : ∃ k r, bytes.length = 5 * k + r ∧ r < 5 :=
    ⟨bytes.length / 5, bytes.length % 5, by omega, by omega⟩
  rw [hk, symbolCount, padCount, show (5 * k + r) % 5 = r by omega]
  interval_cases r <;> simp only <;> omega

/-- B32PROJ on up to 128 bytes (R110). -/
theorem projectBytes_fits {bytes : List Byte} (h : bytes.length ≤ Config.obufCap) :
    projectBytes bytes = .ok { bytes := bytes.map projectByte } := by
  rw [projectBytes, if_neg (by omega)]

end Sys2Proof.Machine
end

