-- ==== Sys2Proof/Laws/Environment.lean ====
section
/-! SUPPORT. What the environment's operations can do: which way createSecret ends, and which steps verifyCode scans
(45_environment_totp_engine.md R147 to R149). -/

namespace Sys2Proof.Machine

/-! ### createSecret -/

theorem createSecret_of_outside {length : Int} (h : length < 16 ∨ 128 < length) (draw : Option (Nat → Byte)) (s : State) :
    createSecret length draw s = (.error .invalidParameter, s) :=
  if_pos h

theorem createSecret_of_no_source {length : Int} (low : 16 ≤ length) (high : length ≤ 128) (s : State) :
    createSecret length none s = (.error .insecureRandomSource, s) :=
  if_neg (show ¬ (length < 16 ∨ 128 < length) by omega)

/-- In the range, and with a source, it is one transaction on the block. -/
theorem createSecret_of_draw {length : Nat} (low : 16 ≤ length) (high : length ≤ 128) (draw : Nat → Byte) (s : State) :
    createSecret length (some draw) s =
      transact ((List.range length).map draw) .b32proj (fun t => Memory.bytesFrom t.obuf 0 length) s :=
  if_neg (show ¬ ((length : Int) < 16 ∨ 128 < (length : Int)) by omega)

/-! ### verifyCode -/

theorem verifyCode_of_wrong_length {candidate : List Byte} (h : candidate.length ≠ 6) (secret : List Byte)
    (discrepancy unixTime : Nat) (s : State) : verifyCode secret candidate discrepancy unixTime s = (.ok false, s) :=
  if_neg h

/-- The window holds exactly the steps from current - discrepancy to current + discrepancy. -/
theorem mem_stepWindow {current discrepancy : Nat} {step : Int} :
    step ∈ stepWindow current discrepancy ↔ (current : Int) - discrepancy ≤ step ∧ step ≤ current + discrepancy := by
  simp only [stepWindow, List.mem_map, List.mem_range]
  constructor
  · rintro ⟨k, hk, rfl⟩
    omega
  · intro h
    exact ⟨(step - (current - discrepancy)).toNat, by omega, by omega⟩

end Sys2Proof.Machine
end

