-- ==== Sys2Proof/Laws/PerInstr.lean ====
section
/-! SUPPORT. What holds of each command as syntax: it is well-formed and its word is one of the eight legal words
(30_encoding.md R61, R63). -/

namespace Sys2Proof.Laws.LegalWord

/-- A command is well-formed and its word is legal: RSV is zero, OP below 6, P set only on B32ENC or B32LUT (R60 to R63). -/
def Statement (i : Instr) : Prop :=
  i.wellFormed = true ∧ rsvField (encode i) = 0#4 ∧ opField (encode i) < 6#3 ∧
    (padField (encode i) = true → opField (encode i) = 2#3 ∨ opField (encode i) = 4#3)

theorem clr : Statement .clr := by unfold Statement; decide

theorem b32dec : Statement .b32dec := by unfold Statement; decide

theorem b32enc (p : Bool) : Statement (.b32enc p) := by unfold Statement; revert p; decide

theorem b32proj : Statement .b32proj := by unfold Statement; decide

theorem b32lut (p : Bool) : Statement (.b32lut p) := by unfold Statement; revert p; decide

theorem truncfmt : Statement .truncfmt := by unfold Statement; decide

end Sys2Proof.Laws.LegalWord
end

