-- ==== Sys2Proof/Laws/Port.lean ====
section
/-! SUPPORT. The port: what one event does, what a word written to CMD does, and host scripts. -/

namespace Sys2Proof.Machine

/-- A step with an event pending performs it (20_memory.md R51). -/
theorem step_of_pending {s : State} {e : PortEvent} {rest : List PortEvent} (h : s.pending = e :: rest) :
    step s = perform e (setPending rest s) := by rw [step, serveNext, h]

/-- The host's command word is the first event it asks for (log 1). -/
theorem withFetchWord_pending (s : State) (nbits w : Nat) :
    (s.withFetchWord nbits w).pending =
      .writeReg 0x00#8 (BitVec.ofNat 8 (w % 2 ^ nbits)).toNat :: s.pending := rfl

theorem perform_command (w : BitVec 8) (s : State) : perform (.writeReg 0x00#8 w.toNat) s = runCommand w s := by
  rw [show perform (.writeReg 0x00#8 w.toNat) s = runCommand (BitVec.ofNat 8 w.toNat) s from rfl, BitVec.ofNat_toNat,
    BitVec.setWidth_eq]

/-- A legal word runs its command (43_control.md R136). -/
theorem runCommand_of_ok {w : BitVec 8} {i : Instr} (h : decode w = .ok i) (s : State) : runCommand w s = exec i s := by
  rw [runCommand, h]

/-- An illegal word completes with ILLEGAL_CMD (60_exceptions.md R163). -/
theorem runCommand_of_error {w : BitVec 8} {e : DecodeError} (h : decode w = .error e) (s : State) :
    runCommand w s = .next (finish (.error .illegalCmd) s) := by
  rw [runCommand, h]
  rfl

/-- Every command but CLR completes as a success or as a failure (60_exceptions.md R166). -/
theorem exec_eq_finish {i : Instr} (h : i ≠ .clr) (s : State) : ∃ o, exec i s = .next (finish o s) := by
  cases i with
  | clr => exact absurd rfl h
  | b32dec => exact ⟨_, exec_b32dec s⟩
  | b32enc p => exact ⟨_, exec_b32enc p s⟩
  | b32proj => exact ⟨_, exec_b32proj s⟩
  | b32lut p => exact ⟨_, exec_b32lut p s⟩
  | truncfmt => exact ⟨_, exec_truncfmt s⟩

/-- What a second completion writes does not depend on the first (10_state.md R22). -/
@[simp] theorem finish_finish (o o' : Except Failure Result) (s : State) : finish o' (finish o s) = finish o' s := by
  cases o <;> cases o' <;> rfl

@[simp] theorem inputOperand_finish (o : Except Failure Result) (s : State) :
    inputOperand (finish o s) = inputOperand s := by cases o <;> rfl

@[simp] theorem truncateDigest_finish (o : Except Failure Result) (s : State) :
    truncateDigest (finish o s) = truncateDigest s := by cases o <;> rfl

/-! ### Host scripts -/

theorem serve_append {first second : List PortEvent} {s t : State} (h : serve first s = .next t) :
    serve (first ++ second) s = serve second t := by
  induction first generalizing s with
  | nil =>
    cases h
    rfl
  | cons e first ih =>
    simp only [serve, List.cons_append] at h ⊢
    cases hp : perform e s with
    | next u =>
      rw [hp] at h
      exact ih h
    | fault r =>
      rw [hp] at h
      cases h
    | refused r =>
      rw [hp] at h
      cases h

theorem perform_writeIbuf {i : Nat} (h : i < Config.ibufCap) (b : Byte) (s : State) :
    perform (.writeIbuf i b) s = .next (storeIbuf i b s) := by
  simp only [perform]
  rw [if_pos h]

/-- Writing a string into IBUF from index `i` (30_encoding.md R70). -/
theorem serve_writeScript (bytes : List Byte) :
    ∀ {i : Nat} {s : State}, Memory.wf Config.ibufCap s.ibuf = true → i + bytes.length ≤ Config.ibufCap →
      ∃ m, serve (writeScript i bytes) s = .next { s with ibuf := m } ∧ Memory.wf Config.ibufCap m = true ∧
        ∀ a, Memory.read m a =
          if i ≤ a ∧ a < i + bytes.length then bytes.getD (a - i) 0x00#8 else Memory.read s.ibuf a := by
  induction bytes with
  | nil =>
    intro i s h _
    exact ⟨s.ibuf, rfl, h, fun a => by rw [if_neg (by simp)]⟩
  | cons b bytes ih =>
    intro i s h hl
    rw [List.length_cons] at hl
    obtain ⟨m, hm, hwf, hread⟩ :=
      ih (i := i + 1) (s := storeIbuf i b s) (Memory.write_wf h (by omega)) (by omega)
    refine ⟨m, ?_, hwf, fun a => ?_⟩
    · rw [writeScript, serve, perform_writeIbuf (by omega)]
      exact hm
    · rw [hread, storeIbuf_ibuf, Memory.read_write h, List.length_cons]
      by_cases ha : a = i
      · subst ha
        rw [if_neg (by omega), if_pos rfl, if_pos (by omega)]
        simp
      · by_cases hb : i + 1 ≤ a ∧ a < i + 1 + bytes.length
        · rw [if_pos hb, if_pos (by omega), show a - i = (a - (i + 1)) + 1 by omega]
          simp
        · rw [if_neg hb, if_neg ha, if_neg (by omega)]

/-- LOAD (30_encoding.md R70; log 13 for a string longer than IBUF). -/
theorem serve_loadScript (bytes : List Byte) {s : State} (h : Memory.wf Config.ibufCap s.ibuf = true) :
    ∃ m, serve (loadScript bytes) s =
        .next { s with ibuf := m, ilen := BitVec.ofNat 8 (min bytes.length 255) } ∧
      Memory.wf Config.ibufCap m = true ∧
      ∀ a, Memory.read m a =
        if a < min bytes.length Config.ibufCap then bytes.getD a 0x00#8 else Memory.read s.ibuf a := by
  obtain ⟨m, hm, hwf, hread⟩ :=
    serve_writeScript (bytes.take Config.ibufCap) (i := 0) h (by rw [List.length_take]; omega)
  refine ⟨m, ?_, hwf, fun a => ?_⟩
  · rw [loadScript, serve_append hm]
    rfl
  · rw [hread, List.length_take, Nat.zero_add, Nat.min_comm]
    split
    · next ha =>
      rw [if_pos ha.2]
      simp only [Nat.sub_zero, List.getD_eq_getElem?_getD, List.getElem?_take]
      rw [if_pos (by omega)]
    · next ha => rw [if_neg (by omega)]

end Sys2Proof.Machine
end

