-- ==== Sys2Proof/Laws/Truncate.lean ====
section
/-! SUPPORT. The stages of TRUNCFMT as numbers (42_truncate_format.md R122 to R126). -/

namespace Sys2Proof.Machine

theorem append_byte_toNat {n : Nat} (x : BitVec n) (b : Byte) : (x ++ b).toNat = x.toNat * 2 ^ 8 + b.toNat := by
  rw [BitVec.toNat_append, ← Nat.shiftLeft_add_eq_or_of_lt b.isLt, Nat.shiftLeft_eq]

/-- BE32 as a number (20_memory.md R48). -/
theorem be32_toNat (b₀ b₁ b₂ b₃ : Byte) :
    (be32 b₀ b₁ b₂ b₃).toNat = b₀.toNat * 2 ^ 24 + b₁.toNat * 2 ^ 16 + b₂.toNat * 2 ^ 8 + b₃.toNat := by
  rw [be32, append_byte_toNat, append_byte_toNat, append_byte_toNat]
  omega

/-- The mask is a remainder (R124). -/
theorem maskSign_toNat (window : Word32) : (maskSign window).toNat = window.toNat % 2 ^ 31 := by
  rw [maskSign, BitVec.toNat_and, show Config.dbcMask.toNat = 2 ^ 31 - 1 by decide, Nat.and_two_pow_sub_one_eq_mod]

/-- The offset is the low nibble (R122). -/
theorem truncOffset_toNat : ∀ last : Byte, (truncOffset last).toNat = last.toNat % 16 := by decide

theorem codeDigits_eq (value : Nat) : codeDigits value = sixDigits value := by
  simp [codeDigits, sixDigits, digitChar, List.range_succ]

theorem truncate_offset (ibuf : Memory) : (truncate ibuf).offset.toNat = (Memory.read ibuf 19).toNat % 16 := by
  rw [show (truncate ibuf).offset = (truncOffset (Memory.read ibuf 19)).setWidth 8 from rfl, BitVec.toNat_setWidth,
    truncOffset_toNat]
  omega

theorem truncate_dbc (ibuf : Memory) : (truncate ibuf).dbc.toNat = digestCode (Memory.read ibuf) := by
  rw [show (truncate ibuf).dbc = maskSign (truncWindow ibuf (truncOffset (Memory.read ibuf 19))) from rfl, maskSign_toNat,
    truncWindow, be32_toNat, truncOffset_toNat]
  rfl

theorem truncate_dbc_lt (ibuf : Memory) : (truncate ibuf).dbc.toNat < 2 ^ 31 := by
  rw [truncate_dbc]
  exact Nat.mod_lt _ (by decide)

theorem truncate_value (ibuf : Memory) : (truncate ibuf).value.toNat = (truncate ibuf).dbc.toNat % 1000000 := by
  rw [show (truncate ibuf).value = BitVec.ofNat 32 ((truncate ibuf).dbc.toNat % 1000000) from rfl, BitVec.toNat_ofNat]
  omega

theorem truncate_bytes (ibuf : Memory) : (truncate ibuf).bytes = sixDigits (truncate ibuf).value.toNat := by
  rw [truncate_value, ← codeDigits_eq]
  rfl

/-- The digest operand (R121). -/
theorem truncateDigest_eq (s : State) :
    truncateDigest s = if s.ilen.toNat = 20 then .ok (truncate s.ibuf) else .error .badLength := rfl

end Sys2Proof.Machine
end

