-- ==== Sys2Proof/Tests/Slice0.lean ====
section
/-! SUPPORT. Tests on the spec's own vectors (95_test_vectors.md; each theorem names its vector) and one witness for every
statement of Certificates/Slice0/Obligations.lean that has hypotheses. -/

namespace Sys2Proof.Tests

open Sys2Proof.Machine

/-! ### Helpers -/

/-- The reset state after LOAD. -/
def inputState (bytes : List Byte) : State :=
  { State.reset with ibuf := Memory.ofBytes bytes, ilen := BitVec.ofNat 8 bytes.length }

/-- One field or view of the next state. -/
def after {α : Type} (view : State → α) : Host.Outcome State Fault Refusal → Option α
  | .next t => some (view t)
  | .fault _ => none
  | .refused _ => none

/-- STATUS and the result string. -/
def outcome (t : State) : BitVec 8 × List Byte := (t.status, outputString t)

/-- The digest of vector T1. -/
def digestT1 : List Byte :=
  [0x1F#8, 0x86#8, 0x98#8, 0x69#8, 0x0E#8, 0x02#8, 0xCA#8, 0x16#8, 0x61#8, 0x85#8,
   0x50#8, 0xEF#8, 0x7F#8, 0x19#8, 0xDA#8, 0x8E#8, 0x94#8, 0x5B#8, 0x55#8, 0x5A#8]

theorem inputState_holds (bytes : List Byte) (h : bytes.length ≤ 128) : HoldsInput (inputState bytes) bytes := by
  refine ⟨?_, h, fun i _ => Memory.read_ofBytes bytes i⟩
  show (BitVec.ofNat 8 bytes.length).toNat = bytes.length
  rw [BitVec.toNat_ofNat]
  omega

/-- A state with an input that meets the invariants. -/
theorem hello_observable : ObservableInv (inputState (asciiBytes "JBSWY3DP")) := by
  refine ⟨by decide, rfl, by decide, fun _ _ => rfl, Or.inl rfl, fun _ => ⟨rfl, rfl, rfl, rfl⟩, by decide, by decide, rfl, ?_⟩
  rintro (h | h) <;> exact absurd rfl h

/-! ### Well-formedness and the command word -/

/-- 20_memory.md R41, R45: an index at the capacity is refused by the check, the last index is not. -/
theorem test_wellFormed_buffer_index :
    (PortEvent.writeIbuf 128 0x00#8).wellFormed = false ∧ (PortEvent.readIbuf 128).wellFormed = false ∧
    (PortEvent.writeObuf 128 0x00#8).wellFormed = false ∧ (PortEvent.readObuf 255).wellFormed = false ∧
    (PortEvent.writeIbuf 127 0x00#8).wellFormed = true ∧ (PortEvent.readObuf 127).wellFormed = true ∧
    (Instr.b32enc true).wellFormed = true := by decide

/-- 30_encoding.md R60, R61: each command's word, RSV then P then OP. -/
theorem test_decode_clr : decode (0b0000#4 ++ 0b0#1 ++ 0b000#3) = .ok .clr := by decide

theorem test_decode_b32dec : decode (0b0000#4 ++ 0b0#1 ++ 0b001#3) = .ok .b32dec := by decide

theorem test_decode_b32enc : decode (0b0000#4 ++ 0b0#1 ++ 0b010#3) = .ok (.b32enc false) := by decide

theorem test_decode_b32enc_padded : decode (0b0000#4 ++ 0b1#1 ++ 0b010#3) = .ok (.b32enc true) := by decide

theorem test_decode_b32proj : decode (0b0000#4 ++ 0b0#1 ++ 0b011#3) = .ok .b32proj := by decide

theorem test_decode_b32lut : decode (0b0000#4 ++ 0b0#1 ++ 0b100#3) = .ok (.b32lut false) := by decide

theorem test_decode_b32lut_padded : decode (0b0000#4 ++ 0b1#1 ++ 0b100#3) = .ok (.b32lut true) := by decide

theorem test_decode_truncfmt : decode (0b0000#4 ++ 0b0#1 ++ 0b101#3) = .ok .truncfmt := by decide

/-- R63: each kind of illegal word is rejected by name. -/
theorem test_decode_rejects_by_name :
    decode 0x11#8 = .error .reservedBits ∧ decode 0xFF#8 = .error .reservedBits ∧ decode 0x06#8 = .error .reservedOp ∧
    decode 0x0F#8 = .error .reservedOp ∧ decode 0x08#8 = .error .paddingNotAllowed ∧
    decode 0x0D#8 = .error .paddingNotAllowed := by decide

/-- The table's word for B32LUT with P, as the host numbers it. -/
theorem test_decodeTableWord : decodeTableWord 8 0x0C = some (.b32lut true) ∧ decodeTableWord 8 0x0E = none := by decide

/-! ### Commands -/

/-- K1: CLR after S2 gives the reset state. -/
theorem test_clr_K1 :
    exec .clr { inputState (asciiBytes "JBSWY3DP") with
      obuf := Memory.ofBytes (asciiBytes "Hello"), olen := 5#8, status := 0x01#8 } = .next State.reset := rfl

/-- S2. -/
theorem test_b32dec_S2 :
    after outcome (exec .b32dec (inputState (asciiBytes "JBSWY3DP"))) = some (0x01#8, asciiBytes "Hello") := by decide

/-- S1. -/
theorem test_b32dec_S1 :
    after outcome (exec .b32dec (inputState (asciiBytes "INVALIDBAS2251STRING"))) = some (0x07#8, []) := by decide

/-- E4, P = 0. -/
theorem test_b32enc_E4 :
    after outcome (exec (.b32enc false) (inputState [0x66#8, 0x6F#8, 0x6F#8])) = some (0x01#8, asciiBytes "MZXW6") := by
  decide

/-- E7, P = 1. -/
theorem test_b32enc_padded_E7 :
    after outcome (exec (.b32enc true) (inputState [0x66#8, 0x6F#8, 0x6F#8, 0x62#8, 0x61#8, 0x72#8])) =
      some (0x01#8, asciiBytes "MZXW6YTBOI======") := by decide

/-- J1. -/
theorem test_b32proj_J1 :
    after outcome (exec .b32proj (inputState [0x00#8, 0x1F#8, 0x20#8, 0x21#8, 0x3F#8, 0x40#8, 0xFF#8, 0x41#8, 0x5A#8,
      0x80#8, 0x9F#8, 0xE0#8])) = some (0x01#8, asciiBytes "A7AB7A7B2A7A") := by decide

/-- J6. -/
theorem test_b32proj_J6 :
    after outcome (exec .b32proj { State.reset with ilen := 129#8 }) = some (0x0B#8, []) := by decide

/-- LUT2 and LUT3: the pad character as byte 32, and no BAD_LENGTH whatever ILEN holds. -/
theorem test_b32lut_LUT2 :
    after outcome (exec (.b32lut true) { State.reset with ilen := 200#8 }) =
      some (0x01#8, asciiBytes "ABCDEFGHIJKLMNOPQRSTUVWXYZ234567=") := by decide

/-- T1. -/
theorem test_truncfmt_T1 :
    after (fun t => (outcome t, t.offset, t.dbc, t.value)) (exec .truncfmt (inputState digestT1)) =
      some ((0x01#8, asciiBytes "872921"), 0x0A#8, 0x50EF7F19#32, 0x000D51D9#32) := by decide

/-- T8: offset 15, sign bit masked. -/
theorem test_truncfmt_T8 :
    after (fun t => (outcome t, t.offset, t.dbc, t.value))
      (exec .truncfmt (inputState (List.replicate 15 0x00#8 ++ [0x80#8, 0x01#8, 0xE2#8, 0x40#8, 0xFF#8]))) =
      some ((0x01#8, asciiBytes "123456"), 0x0F#8, 0x0001E240#32, 123456#32) := by decide

/-! ### The port -/

/-- K4: the word 0x08 is illegal and does not clear IBUF. -/
theorem test_step_K4 :
    after (fun t => (t.status, Memory.read t.ibuf 0, t.ilen)) (step ((inputState [0x4D#8]).withFetchWord 8 0x08)) =
      some (0x0F#8, 0x4D#8, 1#8) := by decide

/-- K8: ILLEGAL_CMD before BAD_LENGTH. -/
theorem test_step_K8 :
    after State.status (step ({ State.reset with ilen := 200#8 }.withFetchWord 8 0x09)) = some 0x0F#8 := by decide

/-- HA1, HA5, HA6: CFG, a reserved number, and the high bits of a write to ILEN. -/
theorem test_port_HA :
    readRegister 0x07#8 State.reset = 0x80801406#32 ∧ readRegister 0x40#8 State.reset = 0#32 ∧
    after State.ilen (perform (.writeReg 0x02#8 0x1FF) State.reset) = some 0xFF#8 := by decide

/-- R143's example. -/
theorem test_be64 : be64 37037036 = [0#8, 0#8, 0#8, 0#8, 0x02#8, 0x35#8, 0x23#8, 0xEC#8] := by decide

/-! ### Witnesses: a state and operands that meet the hypotheses of each statement -/

theorem witness_StepKeepsInvariant : ∃ s t, ObservableInv s ∧ step s = .next t :=
  ⟨_, _, hello_observable, rfl⟩

theorem witness_EncodingRoundTrip :
    (∃ i : Instr, i.wellFormed = true) ∧ ∃ (w : BitVec 8) (i : Instr), decode w = .ok i :=
  ⟨⟨.b32enc true, rfl⟩, 0x0C#8, .b32lut true, by decide⟩

theorem witness_IllegalWordsComplete :
    (∃ w : BitVec 8, ∀ i, decode w ≠ .ok i) ∧ ∃ (i : Instr) (s t : State), exec i s = .next t :=
  ⟨⟨0x08#8, fun i => by rw [show decode 0x08#8 = .error .paddingNotAllowed by decide]; exact fun h => by cases h⟩,
   .b32dec, State.reset, _, exec_b32dec _⟩

theorem witness_ClrRestoresReset : ∃ (i : Instr) (s t : State), i ≠ .clr ∧ exec i s = .next t :=
  ⟨.truncfmt, State.reset, _, by decide, exec_truncfmt _⟩

theorem witness_StepRunsDecodedCommand :
    ∃ (s : State) (v : Nat) (rest : List PortEvent) (i : Instr),
      s.pending = .writeReg 0x00#8 v :: rest ∧ decode (BitVec.ofNat 8 v) = .ok i :=
  ⟨State.reset.withFetchWord 8 0x05, 5, [], .truncfmt, by decide, by decide⟩

theorem witness_StepServesOldestEvent :
    (∃ (s : State) (e : PortEvent) (rest : List PortEvent), s.pending = e :: rest) ∧ ∃ s : State, s.pending = [] :=
  ⟨⟨setPending [.reset] State.reset, .reset, [], rfl⟩, State.reset, rfl⟩

theorem witness_CommandFrame : ∃ (i : Instr) (s t : State), exec i s = .next t ∧ i ≠ .clr :=
  ⟨.b32dec, State.reset, _, exec_b32dec _, by decide⟩

theorem witness_FailedCompletionZeroesOutputs :
    ∃ (v : Nat) (s t : State), perform (.writeReg 0x00#8 v) s = .next t ∧ t.failed = true :=
  ⟨0x01, State.reset, fail .invalidEncoding State.reset, by rfl, by decide⟩

theorem witness_SuccessfulCompletion :
    ∃ (i : Instr) (s t : State), i ≠ .clr ∧ exec i s = .next t ∧ t.failed = false :=
  ⟨.b32lut true, State.reset, _, by decide, exec_b32lut true _, by decide⟩

theorem witness_StatusOutcomes :
    ∃ (w : BitVec 8) (s t : State), perform (.writeReg 0x00#8 w.toNat) s = .next t :=
  ⟨0x00#8, State.reset, _, rfl⟩

/-- The second state differs from the first above ILEN only. -/
theorem witness_OutputsDependOnInputOnly :
    ∃ s₁ s₂ : State, s₁ ≠ s₂ ∧ s₁.ilen = s₂.ilen ∧
      ∀ a, a < min s₁.ilen.toNat Config.ibufCap → Memory.read s₁.ibuf a = Memory.read s₂.ibuf a :=
  ⟨{ State.reset with ibuf := [(0, 0x41#8), (1, 0x42#8)], ilen := 1#8 },
   { State.reset with ibuf := [(0, 0x41#8), (1, 0x43#8)], ilen := 1#8 }, by decide, rfl, by decide⟩

theorem witness_InvalidEncodingExactly : ∃ (i : Instr) (s t : State), exec i s = .next t ∧ t.status = 0x07#8 :=
  ⟨.b32dec, State.reset, fail .invalidEncoding State.reset, by rw [exec_b32dec]; rfl, by decide⟩

theorem witness_BadLengthExactly : ∃ (i : Instr) (s t : State), exec i s = .next t ∧ t.status = 0x0B#8 :=
  ⟨.truncfmt, State.reset, fail .badLength State.reset, by rw [exec_truncfmt]; rfl, by decide⟩

theorem witness_FailurePriority :
    (∃ (i : Instr) (s : State), i ≠ .clr ∧ (∀ p, i ≠ .b32lut p) ∧ Config.ibufCap < s.ilen.toNat) ∧
    (∃ s : State, s.ilen = 0x00#8) ∧ ∃ s : State, s.ilen.toNat = 200 :=
  ⟨⟨.b32dec, { State.reset with ilen := 129#8 }, by decide, fun p => by cases p <;> decide, by decide⟩,
   ⟨State.reset, rfl⟩, { State.reset with ilen := 200#8 }, rfl⟩

theorem witness_CommandsLeaveNoTrace :
    ∃ (v : Nat) (s t : State), v % 256 ≠ 0 ∧ perform (.writeReg 0x00#8 v) s = .next t :=
  ⟨0xFF, State.reset, fail .illegalCmd State.reset, by decide, by rfl⟩

theorem witness_ResultRegistersOfTruncfmtOnly :
    ∃ (i : Instr) (s t : State), exec i s = .next t ∧ t.offset ≠ 0x00#8 ∧ t.dbc ≠ 0#32 ∧ t.value ≠ 0#32 :=
  ⟨.truncfmt, inputState digestT1, _, exec_truncfmt _, by decide, by decide, by decide⟩

/-- The largest text: 128 symbols; and the smallest: one symbol, 127 padding characters. -/
theorem witness_B32decDecodesSymbols :
    (∃ (s : State) (groups : List (BitVec 5)) (p : Nat), groups ≠ [] ∧
      HoldsInput s (groups.map alpha ++ List.replicate p 0x3D#8) ∧ groups.length = 128) ∧
    ∃ (s : State) (groups : List (BitVec 5)) (p : Nat), groups ≠ [] ∧
      HoldsInput s (groups.map alpha ++ List.replicate p 0x3D#8) ∧ groups.length = 1 ∧ p = 127 :=
  ⟨⟨_, List.replicate 128 31#5, 0, by simp, inputState_holds _ (by simp), by simp⟩,
   _, [31#5], 127, by simp, inputState_holds _ (by simp), rfl, rfl⟩

/-- A space last, after a run of padding (DEC20), and an input that is all padding (DEC15). -/
theorem witness_B32decRejectsBadInput :
    (∃ s : State, s.ilen.toNat ≤ Config.ibufCap ∧ ∃ a, IsData s a ∧ ¬ InAlphabet (Memory.read s.ibuf a)) ∧
    ∃ s : State, s.ilen.toNat ≤ Config.ibufCap ∧ 0 < s.ilen.toNat ∧
      ∀ a, a < s.ilen.toNat → Memory.read s.ibuf a = 0x3D#8 :=
  ⟨⟨inputState (asciiBytes "MZXW6=== "), by decide, 8, ⟨8, by decide, by decide, by decide⟩, by
      unfold InAlphabet; decide⟩,
   inputState (asciiBytes "===="), by decide, by decide, by decide⟩

theorem witness_B32decRejectsLowerCase :
    ∃ (s : State) (a : Nat), s.ilen.toNat ≤ Config.ibufCap ∧ a < s.ilen.toNat ∧
      0x61 ≤ (Memory.read s.ibuf a).toNat ∧ (Memory.read s.ibuf a).toNat ≤ 0x7A :=
  ⟨inputState (asciiBytes "JBSWy3DP"), 4, by decide, by decide, by decide, by decide⟩

/-- ILEN = 129 and ILEN = 128 (also for B32PROJ and B32ENC beside 80 and 81). -/
theorem witness_B32decLengthFailure :
    (∃ s : State, Config.ibufCap < s.ilen.toNat ∧ s.ilen.toNat = 129) ∧
    ∃ s : State, s.ilen.toNat ≤ Config.ibufCap ∧ s.ilen.toNat = 128 :=
  ⟨⟨{ State.reset with ilen := 129#8 }, by decide, rfl⟩, { State.reset with ilen := 128#8 }, by decide, rfl⟩

/-- "MY" and "MZ" (DEC1, DEC28). -/
theorem witness_B32decDropsTrailingBits :
    ∃ (s₁ s₂ : State) (g₁ g₂ : List (BitVec 5)) (p₁ p₂ : Nat), g₁ ≠ [] ∧ g₁.length = g₂.length ∧ g₁ ≠ g₂ ∧
      groupsNumber g₁ >>> (5 * g₁.length % 8) = groupsNumber g₂ >>> (5 * g₂.length % 8) ∧
      HoldsInput s₁ (g₁.map alpha ++ List.replicate p₁ 0x3D#8) ∧
      HoldsInput s₂ (g₂.map alpha ++ List.replicate p₂ 0x3D#8) :=
  ⟨_, _, [12#5, 24#5], [12#5, 25#5], 0, 6, by decide, rfl, by decide, by decide,
    inputState_holds _ (by simp), inputState_holds _ (by simp)⟩

/-- The other two clauses: "M3" and "7". -/
theorem witness_B32decDropsTrailingBits_texts :
    (∃ (s : State) (text : List Byte),
      text ∈ [asciiBytes "MY", asciiBytes "MZ", asciiBytes "M2", asciiBytes "M3"] ∧ HoldsInput s text) ∧
    ∃ (s : State) (v : BitVec 5), HoldsInput s [alpha v] ∧ v = 31#5 :=
  ⟨⟨_, asciiBytes "M3", by decide, inputState_holds _ (by decide)⟩, _, 31#5, inputState_holds _ (by simp), rfl⟩

theorem witness_B32decEmptyResultIsOneSymbol :
    ∃ s t : State, exec .b32dec s = .next t ∧ t.status = 0x01#8 ∧ t.olen = 0x00#8 :=
  ⟨inputState (asciiBytes "A"), _, exec_b32dec _, by decide, by decide⟩

theorem witness_B32encUnpadded :
    ∃ (s : State) (bytes : List Byte), HoldsInput s bytes ∧ bytes.length ≤ 80 ∧ bytes.length = 80 :=
  ⟨_, List.replicate 80 0xFF#8, inputState_holds _ (by simp), by simp, by simp⟩

theorem witness_B32encPadded :
    ∃ (s : State) (bytes : List Byte), HoldsInput s bytes ∧ bytes.length ≤ 80 ∧ bytes.length % 5 = 1 :=
  ⟨_, List.replicate 76 0xFF#8, inputState_holds _ (by simp), by simp, by simp⟩

theorem witness_B32encLengthFailure :
    (∃ s : State, 80 < s.ilen.toNat ∧ s.ilen.toNat = 81) ∧ ∃ s : State, s.ilen.toNat ≤ 80 ∧ s.ilen.toNat = 80 :=
  ⟨⟨{ State.reset with ilen := 81#8 }, by decide, rfl⟩, { State.reset with ilen := 80#8 }, by decide, rfl⟩

theorem witness_B32encEmptyInput : ∃ s : State, s.ilen = 0x00#8 := ⟨State.reset, rfl⟩

theorem witness_B32projProjects :
    (∃ (s : State) (bytes : List Byte), HoldsInput s bytes ∧ bytes.length = 128) ∧
    ∃ s : State, Config.ibufCap < s.ilen.toNat ∧ s.ilen.toNat = 129 :=
  ⟨⟨_, List.replicate 128 0xE0#8, inputState_holds _ (by simp), by simp⟩, { State.reset with ilen := 129#8 }, by decide, rfl⟩

/-- The decoding clause: a state that holds the projection of one byte. -/
theorem witness_ProjectionDecodesToLowBits :
    ∃ (s t u : State) (bytes : List Byte), bytes ≠ [] ∧ HoldsInput s bytes ∧ exec .b32proj s = .next t ∧
      HoldsInput u (outputString t) :=
  ⟨inputState [0xDE#8], _, inputState [0x36#8], [0xDE#8], by decide, inputState_holds _ (by decide), exec_b32proj _,
    inputState_holds [0x36#8] (by decide)⟩

/-- The decoding clause: a state that holds "MY======", the encoding of the byte 66. -/
theorem witness_EncodeDecodeRoundTrip :
    ∃ (s t u : State) (p : Bool) (bytes : List Byte), bytes ≠ [] ∧ bytes.length ≤ 80 ∧ HoldsInput s bytes ∧
      exec (.b32enc p) s = .next t ∧ HoldsInput u (outputString t) :=
  ⟨inputState [0x66#8], _, inputState (asciiBytes "MY======"), true, [0x66#8], by decide, by decide,
    inputState_holds _ (by decide), exec_b32enc true _, inputState_holds (asciiBytes "MY======") (by decide)⟩

theorem witness_TruncfmtStages : ∃ s : State, s.ilen.toNat = 20 := ⟨inputState digestT1, by decide⟩

theorem witness_TruncfmtDigestLength :
    (∃ s : State, s.ilen.toNat ≠ 20 ∧ s.ilen.toNat = 19) ∧ (∃ s : State, s.ilen.toNat ≠ 20 ∧ s.ilen.toNat = 21) ∧
    ∃ s : State, s.ilen.toNat = 20 :=
  ⟨⟨{ State.reset with ilen := 19#8 }, by decide, rfl⟩, ⟨{ State.reset with ilen := 21#8 }, by decide, rfl⟩,
   inputState digestT1, by decide⟩

theorem witness_TruncfmtDigitsReadBack : ∃ s t : State, s.ilen.toNat = 20 ∧ exec .truncfmt s = .next t :=
  ⟨inputState digestT1, _, by decide, exec_truncfmt _⟩

/-- Two digests with offset 0 that differ at index 10 and in the high nibble of byte 19. -/
theorem witness_TruncfmtReadsWindowOnly :
    ∃ s₁ s₂ : State, s₁.ibuf ≠ s₂.ibuf ∧ s₁.ilen.toNat = 20 ∧ s₂.ilen.toNat = 20 ∧
      (Memory.read s₁.ibuf 19).toNat % 16 = (Memory.read s₂.ibuf 19).toNat % 16 ∧
      ∀ j, j < 4 → Memory.read s₁.ibuf ((Memory.read s₁.ibuf 19).toNat % 16 + j) =
        Memory.read s₂.ibuf ((Memory.read s₁.ibuf 19).toNat % 16 + j) :=
  ⟨{ State.reset with ilen := 20#8, ibuf := [(3, 0x2A#8), (10, 0x01#8), (19, 0x10#8)] },
   { State.reset with ilen := 20#8, ibuf := [(3, 0x2A#8), (19, 0xF0#8)] },
   by decide, rfl, rfl, by decide, by decide⟩

theorem witness_AccessesAreIdempotent :
    (∃ (s t : State) (e : PortEvent), ((∃ i, e = .readIbuf i ∨ e = .readObuf i) ∨ ∃ n, e = .readReg n) ∧
      perform e s = .next t) ∧
    (∃ (s t : State) (i : Nat) (b : Byte), ObservableInv s ∧ perform (.writeIbuf i b) s = .next t) ∧
    ∃ (s t : State) (n : BitVec 8) (v : Nat), perform (.writeReg n v) s = .next t :=
  ⟨⟨State.reset, _, .readReg 0x01#8, Or.inr ⟨0x01#8, rfl⟩, rfl⟩,
   ⟨_, _, 127, 0x41#8, hello_observable, perform_writeIbuf (by decide) _ _⟩, State.reset, _, 0x00#8, 0, rfl⟩

theorem witness_BufferReads : ∃ i : Nat, i < 128 ∧ i = 127 := ⟨127, by decide, rfl⟩

theorem witness_WritesToPort : (∃ n : BitVec 8, n ≠ 0x00#8 ∧ n ≠ 0x02#8) ∧ ∃ i : Nat, i < 128 :=
  ⟨⟨0x01#8, by decide, by decide⟩, 127, by decide⟩

theorem witness_ReservedAndMissingAccesses : (∃ n : BitVec 8, 0x08 ≤ n.toNat) ∧ ∃ i : Nat, 128 ≤ i :=
  ⟨⟨0x08#8, by decide⟩, 128, by decide⟩

theorem witness_IbufWriteStores : ∃ (s : State) (i : Nat), ObservableInv s ∧ i < 128 ∧ i = 127 :=
  ⟨_, 127, hello_observable, by decide, rfl⟩

theorem witness_LoadIsSeen : ∃ (s : State) (bytes : List Byte), ObservableInv s ∧ bytes.length ≤ 128 ∧ bytes.length = 128 :=
  ⟨_, List.replicate 128 0x41#8, hello_observable, by simp, by simp⟩

theorem witness_CounterIsBigEndian : ∃ step : Nat, step < 2 ^ 64 ∧ step = 2 ^ 64 - 1 := ⟨2 ^ 64 - 1, by decide, rfl⟩

theorem witness_GetCodeOfDecodableSecret :
    ∃ (s : State) (groups : List (BitVec 5)) (p step : Nat), ObservableInv s ∧ groups ≠ [] ∧ groups.length + p ≤ 128 ∧
      step < 2 ^ 64 :=
  ⟨_, List.replicate 128 31#5, 0, 1, hello_observable, by simp, by simp, by decide⟩

theorem witness_GetCodeOfUndecodableSecret :
    (∃ (s : State) (secret : List Byte), ObservableInv s ∧ 128 < secret.length) ∧
    (∃ secret : List Byte, secret ≠ [] ∧ ∀ c ∈ secret, c = 0x3D#8) ∧
    ∃ (secret before after : List Byte) (c : Byte), secret = before ++ c :: after ∧ ¬ InAlphabet c ∧
      (c ≠ 0x3D#8 ∨ ∃ d ∈ after, d ≠ 0x3D#8) :=
  ⟨⟨_, List.replicate 129 0x41#8, hello_observable, by simp⟩, ⟨[0x3D#8], by decide, by decide⟩,
   _, [0x41#8], [0x42#8], 0x3D#8, rfl, by unfold InAlphabet; decide, Or.inr ⟨0x42#8, by decide, by decide⟩⟩

theorem witness_VerifyCodeScansWindow :
    ∃ (s : State) (groups : List (BitVec 5)) (p discrepancy unixTime : Nat), ObservableInv s ∧ groups ≠ [] ∧
      groups.length + p ≤ 128 ∧ discrepancy ≤ unixTime / 30 ∧ unixTime / 30 + discrepancy < 2 ^ 64 :=
  ⟨_, [9#5], 7, 1, 59, hello_observable, by decide, by decide, by decide, by decide⟩

/-- Its three cases are those of GetCodeOfUndecodableSecret; here the foreign byte is the only one. -/
theorem witness_VerifyCodeOfUndecodableSecret :
    ∃ (s : State) (secret before after : List Byte) (c : Byte), ObservableInv s ∧ secret = before ++ c :: after ∧
      ¬ InAlphabet c ∧ c ≠ 0x3D#8 :=
  ⟨_, _, [], [], 0x61#8, hello_observable, rfl, by unfold InAlphabet; decide, by decide⟩

/-- The earliest clock: the window is the steps 0, 1 and 2. -/
theorem witness_VerifyCodeDefaultWindow :
    ∃ (s : State) (groups : List (BitVec 5)) (p unixTime : Nat), ObservableInv s ∧ groups ≠ [] ∧
      groups.length + p ≤ 128 ∧ 30 ≤ unixTime ∧ unixTime / 30 + 1 < 2 ^ 64 ∧ unixTime = 30 :=
  ⟨_, [9#5], 7, 30, hello_observable, by decide, by decide, by decide, by decide, rfl⟩

/-- R149: the default window is three steps. -/
theorem test_stepWindow_default : stepWindow 5 Config.discrepancyDefault = [4, 5, 6] := by decide

/-- R147: a negative length fails with InvalidParameter, here of a platform without a secure source. -/
theorem test_createSecret_negative :
    (match (createSecret (-1) none State.reset).1 with | .error e => some e | .ok _ => none) = some .invalidParameter := by
  decide

theorem witness_CreateSecretProjects :
    (∃ (s : State) (length : Nat), ObservableInv s ∧ 16 ≤ length ∧ length ≤ 128 ∧ length = 128) ∧
    (∃ length : Nat, 16 ≤ length ∧ length ≤ 128 ∧ length = 16) ∧ (∃ length : Int, length < 16 ∧ length = 15) ∧
    ∃ length : Int, 128 < length ∧ length = 129 :=
  ⟨⟨_, 128, hello_observable, by decide, by decide, rfl⟩, ⟨16, by decide, by decide, rfl⟩, ⟨15, by decide, rfl⟩,
   129, by decide, rfl⟩

end Sys2Proof.Tests
end

section
/-! SUPPORT. What the spec says of the state itself (10_state.md): the outputs of a command are a function of the word, ILEN
and the input bytes (R22), the reset values (R27) and the constant CFG (R19). -/

namespace Sys2Proof.Machine

/-! ### The outputs as a function of the input (R22) -/

/-- What a command may read of a state: ILEN and IBUF[0..min(ILEN, IBUF_CAP)-1] (R22). -/
structure SameInput (s₁ s₂ : State) : Prop where
  ilen : s₁.ilen = s₂.ilen
  read : ∀ a, a < min s₁.ilen.toNat Config.ibufCap → Memory.read s₁.ibuf a = Memory.read s₂.ibuf a

/-- The pieces of state that a command's outcome is shown in (R22). -/
structure SameOutputs (t₁ t₂ : State) : Prop where
  obuf : t₁.obuf = t₂.obuf
  olen : t₁.olen = t₂.olen
  status : t₁.status = t₂.status
  offset : t₁.offset = t₂.offset
  dbc : t₁.dbc = t₂.dbc
  value : t₁.value = t₂.value

/-- A completion writes every output, so the same outcome leaves the same outputs in any two states (R137, R165). -/
theorem finish_sameOutputs (o : Except Failure Result) (s₁ s₂ : State) : SameOutputs (finish o s₁) (finish o s₂) := by
  cases o <;> exact ⟨rfl, rfl, rfl, rfl, rfl, rfl⟩

/-- CLR writes every output too (R138). -/
theorem clearBlock_sameOutputs (s₁ s₂ : State) : SameOutputs (clearBlock s₁) (clearBlock s₂) :=
  ⟨rfl, rfl, rfl, rfl, rfl, rfl⟩

/-- The operand of the Base32 data commands is the input and nothing else (R12, R55). -/
theorem inputOperand_congr {s₁ s₂ : State} (h : SameInput s₁ s₂) : inputOperand s₁ = inputOperand s₂ := by
  by_cases hlong : Config.ibufCap < s₁.ilen.toNat
  · rw [inputOperand_of_too_long hlong, inputOperand_of_too_long (h.ilen ▸ hlong)]
  · have text : inputString s₁ = inputString s₂ := by
      rw [inputString, inputString, ← h.ilen]
      refine Memory.bytesFrom_congr _ fun i hi => ?_
      rw [Nat.zero_add]
      exact h.read i (by omega)
    rw [inputOperand, inputOperand, ← h.ilen, text]

/-- The window starts at 15 or below, so it ends inside the 20 digest bytes (42_truncate_format.md R123). -/
theorem truncWindow_congr {m₁ m₂ : Memory} (h : ∀ a, a < 20 → Memory.read m₁ a = Memory.read m₂ a) (off : BitVec 4) :
    truncWindow m₁ off = truncWindow m₂ off := by
  have hoff : off.toNat < 16 := off.isLt
  simp only [truncWindow]
  rw [h _ (by omega), h _ (by omega), h _ (by omega), h _ (by omega)]

/-- Truncation reads the 20 digest bytes only (42_truncate_format.md R120). -/
theorem truncate_congr {m₁ m₂ : Memory} (h : ∀ a, a < 20 → Memory.read m₁ a = Memory.read m₂ a) :
    truncate m₁ = truncate m₂ := by
  have last : Memory.read m₁ (Config.digestLen - 1) = Memory.read m₂ (Config.digestLen - 1) := h 19 (by decide)
  simp only [truncate, last, truncWindow_congr h]

/-- The digest of TRUNCFMT is the input and nothing else (42_truncate_format.md R121). -/
theorem truncateDigest_congr {s₁ s₂ : State} (h : SameInput s₁ s₂) : truncateDigest s₁ = truncateDigest s₂ := by
  rw [truncateDigest_eq, truncateDigest_eq, ← h.ilen]
  by_cases hlen : s₁.ilen.toNat = 20
  · have digest : ∀ a, a < 20 → Memory.read s₁.ibuf a = Memory.read s₂.ibuf a := by
      intro a ha
      refine h.read a ?_
      rw [hlen]
      exact ha
    rw [truncate_congr digest]
  · rw [if_neg hlen, if_neg hlen]

/-- Every command but CLR completes with one and the same outcome on two states with the same input (R22). -/
theorem exec_eq_finish_of_sameInput {i : Instr} (hi : i ≠ .clr) {s₁ s₂ : State} (h : SameInput s₁ s₂) :
    ∃ o, exec i s₁ = .next (finish o s₁) ∧ exec i s₂ = .next (finish o s₂) := by
  cases i with
  | clr => exact absurd rfl hi
  | b32dec => exact ⟨_, exec_b32dec s₁, by rw [exec_b32dec, inputOperand_congr h]⟩
  | b32enc p => exact ⟨_, exec_b32enc p s₁, by rw [exec_b32enc, inputOperand_congr h]⟩
  | b32proj => exact ⟨_, exec_b32proj s₁, by rw [exec_b32proj, inputOperand_congr h]⟩
  | b32lut p => exact ⟨_, exec_b32lut p s₁, exec_b32lut p s₂⟩
  | truncfmt => exact ⟨_, exec_truncfmt s₁, by rw [exec_truncfmt, truncateDigest_congr h]⟩

theorem exec_sameOutputs (i : Instr) {s₁ s₂ : State} (h : SameInput s₁ s₂) :
    ∃ t₁ t₂, exec i s₁ = .next t₁ ∧ exec i s₂ = .next t₂ ∧ SameOutputs t₁ t₂ := by
  by_cases hi : i = .clr
  · subst hi
    exact ⟨_, _, exec_clr s₁, exec_clr s₂, clearBlock_sameOutputs s₁ s₂⟩
  · obtain ⟨o, h₁, h₂⟩ := exec_eq_finish_of_sameInput hi h
    exact ⟨_, _, h₁, h₂, finish_sameOutputs o s₁ s₂⟩

/-- Any word, legal or not, leaves the same outputs in two states with the same input (R22). -/
theorem runCommand_sameOutputs (w : BitVec 8) {s₁ s₂ : State} (h : SameInput s₁ s₂) :
    ∃ t₁ t₂, runCommand w s₁ = .next t₁ ∧ runCommand w s₂ = .next t₂ ∧ SameOutputs t₁ t₂ := by
  cases hw : decode w with
  | ok i =>
    rw [runCommand_of_ok hw, runCommand_of_ok hw]
    exact exec_sameOutputs i h
  | error e => exact ⟨_, _, runCommand_of_error hw s₁, runCommand_of_error hw s₂, finish_sameOutputs _ s₁ s₂⟩

/-- A write to CMD runs bits 7:0 of the written value (20_memory.md R44). -/
theorem perform_writeCmd (v : Nat) (s : State) :
    perform (.writeReg 0x00#8 v) s = runCommand (BitVec.ofNat 8 v) s := rfl

/-- Settles O16: two states with the same input complete every command with the same outcome, and a completion writes every
output. -/
theorem outputsDependOnInputOnly : Obligations.OutputsDependOnInputOnly := by
  unfold Obligations.OutputsDependOnInputOnly
  intro v s₁ s₂ hilen hread
  obtain ⟨t₁, t₂, h₁, h₂, same⟩ := runCommand_sameOutputs (BitVec.ofNat 8 v) ⟨hilen, hread⟩
  rw [perform_writeCmd, perform_writeCmd]
  exact ⟨t₁, t₂, h₁, h₂, fun a => by rw [same.obuf], same.obuf, same.olen, same.status, same.offset, same.dbc, same.value⟩

/-! ### The constants (R19, R27) -/

/-- The four bytes of CFG put together (R19). -/
theorem cfgWord_eq : cfgWord = 0x80801406#32 := by decide

/-- A host read of CFG does not look at the state (R19). -/
theorem readRegister_cfg (s : State) : readRegister 0x07#8 s = 0x80801406#32 :=
  (show readRegister 0x07#8 s = cfgWord from rfl).trans cfgWord_eq

/-- CFG is read-only (20_memory.md R44). -/
theorem perform_writeCfg (v : Nat) (s : State) : perform (.writeReg 0x07#8 v) s = .next s := rfl

/-- The table of R65 is the text of the 32 characters. -/
theorem alphabet_eq_asciiBytes : alphabet = asciiBytes "ABCDEFGHIJKLMNOPQRSTUVWXYZ234567" := by decide

/-- Settles O1: the fields of the reset state one by one, then the constants. -/
theorem resetIsAllZero : Obligations.ResetIsAllZero := by
  unfold Obligations.ResetIsAllZero
  exact ⟨Memory.read_nil, rfl, Memory.read_nil, rfl, rfl, rfl, rfl, rfl, readRegister_cfg _, alphabet_eq_asciiBytes,
    rfl, rfl, rfl⟩

/-- Settles O48: CFG reads one constant in every state, whose bytes are the four parameters. -/
theorem configurationConstant : Obligations.ConfigurationConstant := by
  unfold Obligations.ConfigurationConstant
  rw [readRegister_cfg State.reset]
  exact ⟨readRegister_cfg, fun s v => perform_writeCfg v s, by decide, by decide, by decide, by decide⟩

end Sys2Proof.Machine
end

section
/-! SUPPORT. The host's writes to registers and to OBUF (20_memory.md R44). -/

namespace Sys2Proof.Machine

/-- Every register number but CMD and ILEN ignores a write. -/
theorem perform_writeReg_ignored {n : BitVec 8} (hcmd : n ≠ 0x00#8) (hilen : n ≠ 0x02#8) (v : Nat) (s : State) :
    perform (.writeReg n v) s = .next s := by
  rw [perform, writeRegister]
  split
  · next h => exact absurd (BitVec.eq_of_toNat_eq h) hcmd
  · next h => exact absurd (BitVec.eq_of_toNat_eq h) hilen
  · rfl

/-- ILEN takes bits 7:0 of the written value. -/
theorem perform_writeIlen (v : Nat) (s : State) :
    perform (.writeReg 0x02#8 v) s = .next (setIlen (BitVec.ofNat 8 v) s) := rfl

/-- An element of OBUF that exists ignores a write. -/
theorem perform_writeObuf_ignored {i : Nat} (h : i < Config.obufCap) (b : Byte) (s : State) :
    perform (.writeObuf i b) s = .next s := by
  rw [perform, if_pos h]

/-- CMD is write-only: a host read of it returns 0. -/
theorem readRegister_cmd (s : State) : readRegister 0x00#8 s = 0#32 := rfl

/-- CMD does not see the bits of the written value above 7:0. -/
theorem perform_writeCmd_mod (v : Nat) (s : State) :
    perform (.writeReg 0x00#8 (v % 256)) s = perform (.writeReg 0x00#8 v) s := by
  have low : BitVec.ofNat 8 (v % 256) = BitVec.ofNat 8 v :=
    BitVec.eq_of_toNat_eq (by rw [BitVec.toNat_ofNat, BitVec.toNat_ofNat, Nat.mod_mod])
  rw [perform_writeCmd, perform_writeCmd, low]

/-- Settles O44: a rule for each kind of register number, and one for OBUF. -/
theorem writesToPort : Obligations.WritesToPort := by
  unfold Obligations.WritesToPort
  exact ⟨fun s _ v hcmd hilen => perform_writeReg_ignored hcmd hilen v s,
    fun s _ b hi => perform_writeObuf_ignored hi b s,
    fun s v => perform_writeIlen v s,
    fun s v => (perform_writeCmd_mod v s).symm,
    readRegister_cmd⟩

end Sys2Proof.Machine
end

section
/-! SUPPORT. The command word (30_encoding.md): decoding and encoding invert each other (R60 to R62), the eight legal words
are the words of the commands (R63), and only an illegal word raises ILLEGAL_CMD (60_exceptions.md R163). -/

namespace Sys2Proof

/-! ### Decoding and encoding -/

/-- A word is its three fields put together (R60). -/
theorem fields_append : ∀ w : BitVec 8, rsvField w ++ BitVec.ofBool (padField w) ++ opField w = w := by decide

theorem decode_encode (i : Instr) : decode (encode i) = .ok i := by
  cases i with
  | clr => decide
  | b32dec => decide
  | b32enc p => cases p <;> decide
  | b32proj => decide
  | b32lut p => cases p <;> decide
  | truncfmt => decide

theorem withoutPad_eq_ok {p : Bool} {i j : Instr} (h : withoutPad p i = .ok j) : p = false ∧ i = j := by
  cases p with
  | false => exact ⟨rfl, Except.ok.inj h⟩
  | true => cases h

/-- What OP and P decode to has that number and that flag (R61, R62). -/
theorem fields_of_decodeOp {op : Nat} {p : Bool} {i : Instr} (h : decodeOp op p = .ok i) :
    (opNumber i).toNat = op ∧ padFlag i = p := by
  unfold decodeOp at h
  split at h
  -- OP 2 and 4 take P as it is, 6 and 7 name no command; the others demand P = 0.
  case h_3 | h_5 => cases h; exact ⟨rfl, rfl⟩
  case h_7 => cases h
  all_goals
    obtain ⟨rfl, rfl⟩ := withoutPad_eq_ok h
    exact ⟨rfl, rfl⟩

theorem encode_of_decode {w : BitVec 8} {i : Instr} (h : decode w = .ok i) : encode i = w := by
  rw [decode] at h
  split at h
  · next hrsv =>
    obtain ⟨hop, hpad⟩ := fields_of_decodeOp h
    rw [encode, ← hrsv, hpad, BitVec.eq_of_toNat_eq hop]
    exact fields_append w
  · cases h

/-- A word decodes to a command exactly when it is that command's word. -/
theorem decode_eq_ok_iff {w : BitVec 8} {i : Instr} : decode w = .ok i ↔ encode i = w :=
  ⟨encode_of_decode, fun h => h ▸ decode_encode i⟩

/-! ### The legal words -/

/-- The commands with each value of P they have, in the order of R61's table. -/
def commands : List Instr := [.clr, .b32dec, .b32enc false, .b32enc true, .b32proj, .b32lut false, .b32lut true, .truncfmt]

theorem mem_commands (i : Instr) : i ∈ commands := by
  cases i with
  | clr => decide
  | b32dec => decide
  | b32enc p => cases p <;> decide
  | b32proj => decide
  | b32lut p => cases p <;> decide
  | truncfmt => decide

theorem map_encode_commands :
    commands.map encode = [0x00#8, 0x01#8, 0x02#8, 0x0A#8, 0x03#8, 0x04#8, 0x0C#8, 0x05#8] := by decide

/-- The words that decode are the words of the commands, which are the eight of R63. -/
theorem exists_decode_eq_ok_iff (w : BitVec 8) :
    (∃ i, decode w = .ok i) ↔ w ∈ [0x00#8, 0x01#8, 0x02#8, 0x0A#8, 0x03#8, 0x04#8, 0x0C#8, 0x05#8] := by
  rw [← map_encode_commands, List.mem_map]
  constructor
  · rintro ⟨i, h⟩
    exact ⟨i, mem_commands i, encode_of_decode h⟩
  · rintro ⟨i, -, h⟩
    exact ⟨i, decode_eq_ok_iff.2 h⟩

end Sys2Proof

namespace Sys2Proof.Machine

/-! ### ILLEGAL_CMD -/

/-- The status of a failure tells its cause (60_exceptions.md R160). -/
theorem failureStatus_injective : Function.Injective failureStatus := by
  intro f g h
  cases f <;> cases g <;> simp at h ⊢

theorem successStatus_ne_failureStatus (f : Failure) : successStatus ≠ failureStatus f := by
  cases f <;> decide

/-- A completion shows the status of a failure exactly when it is that failure (43_control.md R137, 60_exceptions.md
R165). -/
theorem finish_status_eq_failureStatus_iff {o : Except Failure Result} {s : State} {f : Failure} :
    (finish o s).status = failureStatus f ↔ o = .error f := by
  cases o with
  | ok r => simp [successStatus_ne_failureStatus]
  | error g => simp [failureStatus_injective.eq_iff]

/-- Reading the operand raises BAD_LENGTH or nothing (R162). -/
theorem inputOperand_bind_ne_illegalCmd {f : List Byte → Except Failure Result}
    (hf : ∀ text, f text ≠ .error .illegalCmd) (s : State) : (inputOperand s).bind f ≠ .error .illegalCmd := by
  rw [inputOperand]
  split
  · nofun
  · exact hf _

theorem decodeText_ne_illegalCmd (text : List Byte) : decodeText text ≠ .error .illegalCmd := by
  simp only [decodeText]
  split
  · nofun
  · split
    · nofun
    · split <;> nofun

theorem encodeBytes_ne_illegalCmd (p : Bool) (bytes : List Byte) : encodeBytes p bytes ≠ .error .illegalCmd := by
  rw [encodeBytes]
  split <;> nofun

theorem projectBytes_ne_illegalCmd (bytes : List Byte) : projectBytes bytes ≠ .error .illegalCmd := by
  rw [projectBytes]
  split <;> nofun

theorem truncateDigest_ne_illegalCmd (s : State) : truncateDigest s ≠ .error .illegalCmd := by
  rw [truncateDigest]
  split <;> nofun

/-- Every command but CLR completes with an outcome that is not ILLEGAL_CMD. -/
theorem exec_eq_finish_ne_illegalCmd {i : Instr} (h : i ≠ .clr) (s : State) :
    ∃ o, exec i s = .next (finish o s) ∧ o ≠ .error .illegalCmd := by
  cases i with
  | clr => exact absurd rfl h
  | b32dec => exact ⟨_, exec_b32dec s, inputOperand_bind_ne_illegalCmd decodeText_ne_illegalCmd s⟩
  | b32enc p => exact ⟨_, exec_b32enc p s, inputOperand_bind_ne_illegalCmd (encodeBytes_ne_illegalCmd p) s⟩
  | b32proj => exact ⟨_, exec_b32proj s, inputOperand_bind_ne_illegalCmd projectBytes_ne_illegalCmd s⟩
  | b32lut p => exact ⟨_, exec_b32lut p s, nofun⟩
  | truncfmt => exact ⟨_, exec_truncfmt s, truncateDigest_ne_illegalCmd s⟩

/-- A legal command never shows ILLEGAL_CMD. -/
theorem exec_status_ne_illegalCmd {i : Instr} {s t : State} (h : exec i s = .next t) : t.status ≠ 0x0F#8 := by
  by_cases hi : i = .clr
  · subst hi
    cases h
    rw [clearBlock_status]
    decide
  · obtain ⟨o, hexec, ho⟩ := exec_eq_finish_ne_illegalCmd hi s
    cases hexec.symm.trans h
    rw [← failureStatus_illegalCmd, Ne, finish_status_eq_failureStatus_iff]
    exact ho

/-- A word that decodes to no command completes with ILLEGAL_CMD, in every state (60_exceptions.md R163). -/
theorem perform_illegal_word {w : BitVec 8} (h : ∀ i, decode w ≠ .ok i) (s : State) :
    perform (.writeReg 0x00#8 w.toNat) s = .next (fail .illegalCmd s) := by
  rw [perform_command]
  cases hw : decode w with
  | ok i => exact absurd hw (h i)
  | error e => exact runCommand_of_error hw s

/-- Settles O5: the words that decode are the words of the commands, every other word completes as a failure with
ILLEGAL_CMD, and no command of its own raises that failure. -/
theorem illegalWordsComplete : Obligations.IllegalWordsComplete := by
  unfold Obligations.IllegalWordsComplete
  refine ⟨exists_decode_eq_ok_iff, fun w s hw => ?_, fun i s t h => exec_status_ne_illegalCmd h⟩
  exact ⟨_, perform_illegal_word hw s, failureStatus_illegalCmd ▸ fail_shows .illegalCmd s,
    finish_keeps (.error .illegalCmd) s⟩

end Sys2Proof.Machine
end

section
/-! SUPPORT. B32DEC (40_base32_decode.md): the inputs it rejects (R82, R87, R88), its length failure (R90), and the bits after
the last whole byte, which it drops unexamined (R86). -/

namespace Sys2Proof.Machine

/-! ### The data symbols of an input -/

/-- A byte has a value exactly when it is one of the alphabet's (30_encoding.md R67). -/
theorem isAlpha_iff_inAlphabet (c : Byte) : isAlpha c = true ↔ InAlphabet c := by
  rw [isAlpha, symbolValue, InAlphabet]
  split
  · next upper => simp [upper]
  · next notUpper =>
    split
    · next digit => simp [digit]
    · next notDigit => simp [notUpper, notDigit]

theorem isAlpha_eq_false_iff (c : Byte) : isAlpha c = false ↔ ¬ InAlphabet c := by
  rw [← isAlpha_iff_inAlphabet, Bool.not_eq_true]

theorem length_dataSymbols_le (text : List Byte) : (dataSymbols text).length ≤ text.length :=
  List.length_take_le' _ _

/-- A text of padding only, the empty one too, has no data symbol (R88). -/
theorem dataSymbols_eq_nil {text : List Byte} (h : ∀ c ∈ text, c = padChar) : dataSymbols text = [] := by
  rw [List.eq_replicate_of_mem h]
  exact dataSymbols_append (text := []) _ (by simp)

/-- A byte that is not padding, and every byte before it, is a data symbol (R81). -/
theorem getElem_mem_dataSymbols {text : List Byte} {i j : Nat} (hij : i ≤ j) (hj : j < text.length)
    (hpad : text[j] ≠ padChar) : text[i] ∈ dataSymbols text := by
  have split := (dataSymbols_split text).1
  have below : j < (dataSymbols text).length := by
    by_contra above
    refine hpad ?_
    rw [List.getElem_of_eq split, List.getElem_append_right (by omega), List.getElem_replicate]
  rw [List.getElem_of_eq split, List.getElem_append_left (by omega)]
  exact List.getElem_mem _

/-- The bytes of IBUF below the pad run are the data symbols of the input (R81). -/
theorem read_mem_dataSymbols {s : State} {a : Nat} (h : IsData s a) :
    Memory.read s.ibuf a ∈ dataSymbols (inputString s) := by
  obtain ⟨j, haj, hj, hpad⟩ := h
  have hj' : j < (inputString s).length := by rwa [length_inputString]
  rw [← getElem_inputString s a (by omega)]
  refine getElem_mem_dataSymbols haj hj' ?_
  rw [getElem_inputString]
  exact hpad

/-! ### What decoding a text answers -/

/-- B32DEC answers what the text that IBUF holds decodes to (R80). -/
theorem exec_b32dec_of_holds {s : State} {text : List Byte} (h : HoldsInput s text) :
    exec .b32dec s = .next (finish (decodeText text) s) := by
  rw [exec_b32dec, inputOperand_of_holds h]
  rfl

/-- With ILEN within IBUF_CAP that text is the input string. -/
theorem exec_b32dec_of_fits {s : State} (h : s.ilen.toNat ≤ Config.ibufCap) :
    exec .b32dec s = .next (finish (decodeText (inputString s)) s) :=
  exec_b32dec_of_holds (holdsInput_inputString h)

/-- A text that IBUF holds gives no more bytes than OBUF holds (R90). -/
theorem decoded_fits {text : List Byte} (h : text.length ≤ Config.ibufCap) :
    ¬ Config.obufCap < 5 * (dataSymbols text).length / 8 := by
  have hdata := length_dataSymbols_le text
  have htext : text.length ≤ 128 := h
  show ¬ 128 < 5 * (dataSymbols text).length / 8
  omega

theorem decodeText_ne_badLength {text : List Byte} (h : text.length ≤ Config.ibufCap) :
    decodeText text ≠ .error .badLength := by
  simp only [decodeText, if_neg (decoded_fits h)]
  split
  · nofun
  · split <;> nofun

/-- No data symbol (R88). -/
theorem decodeText_of_no_data {text : List Byte} (h : dataSymbols text = []) :
    decodeText text = .error .invalidEncoding := by
  simp [decodeText, h]

/-- A data symbol outside the alphabet, wherever it stands (R82). -/
theorem decodeText_of_foreign {text : List Byte} (hfit : text.length ≤ Config.ibufCap)
    (h : ∃ c ∈ dataSymbols text, isAlpha c = false) : decodeText text = .error .invalidEncoding := by
  simp only [decodeText, if_neg (decoded_fits hfit), symbolValues_eq_none h, ite_self]

/-! ### Rejected inputs (R82, R87, R88) -/

/-- A text that does not decode makes the command fail with INVALID_ENCODING (R161). -/
theorem b32dec_fails_invalidEncoding {s : State} (hfit : s.ilen.toNat ≤ Config.ibufCap)
    (h : decodeText (inputString s) = .error .invalidEncoding) : Fails .b32dec s 0x07#8 :=
  failureStatus_invalidEncoding ▸ fails_of_error (h ▸ exec_b32dec_of_fits hfit)

theorem b32dec_fails_of_foreign {s : State} {a : Nat} (hfit : s.ilen.toNat ≤ Config.ibufCap) (hdata : IsData s a)
    (hforeign : ¬ InAlphabet (Memory.read s.ibuf a)) : Fails .b32dec s 0x07#8 :=
  b32dec_fails_invalidEncoding hfit (decodeText_of_foreign (by rwa [length_inputString])
    ⟨_, read_mem_dataSymbols hdata, (isAlpha_eq_false_iff _).2 hforeign⟩)

theorem b32dec_fails_of_all_padding {s : State} (hfit : s.ilen.toNat ≤ Config.ibufCap)
    (hpad : ∀ a, a < s.ilen.toNat → Memory.read s.ibuf a = 0x3D#8) : Fails .b32dec s 0x07#8 := by
  refine b32dec_fails_invalidEncoding hfit (decodeText_of_no_data (dataSymbols_eq_nil fun c hc => ?_))
  obtain ⟨a, ha, rfl⟩ := List.getElem_of_mem hc
  rw [getElem_inputString]
  exact hpad a (by rwa [length_inputString] at ha)

/-- Settles O23: a foreign data byte leaves the symbols without values, and an input of padding has no symbol. -/
theorem b32decRejectsBadInput : Obligations.B32decRejectsBadInput := by
  unfold Obligations.B32decRejectsBadInput
  intro s hfit
  exact ⟨fun ⟨_, hdata, hforeign⟩ => b32dec_fails_of_foreign hfit hdata hforeign, b32dec_fails_of_all_padding hfit⟩

/-- Settles O24: a lower-case letter is neither padding nor in the alphabet, so it is a foreign data byte. -/
theorem b32decRejectsLowerCase : Obligations.B32decRejectsLowerCase := by
  unfold Obligations.B32decRejectsLowerCase
  intro s a hfit ha low high
  have hpad : Memory.read s.ibuf a ≠ 0x3D#8 := by
    intro h
    rw [h] at low
    exact absurd low (by decide)
  have hforeign : ¬ InAlphabet (Memory.read s.ibuf a) := by
    rw [InAlphabet]
    omega
  exact b32dec_fails_of_foreign hfit ⟨a, le_rfl, ha, hpad⟩ hforeign

/-! ### The length failure (R90) -/

theorem b32dec_fails_of_too_long {s : State} (h : Config.ibufCap < s.ilen.toNat) : Fails .b32dec s 0x0B#8 := by
  have hexec : exec .b32dec s = .next (finish (.error .badLength) s) := by
    rw [exec_b32dec, inputOperand_of_too_long h]
    rfl
  exact failureStatus_badLength ▸ fails_of_error hexec

/-- Settles O25: the operand is read or raises BAD_LENGTH as ILEN says, and no text that IBUF holds decodes to more bytes
than OBUF holds. -/
theorem b32decLengthFailure : Obligations.B32decLengthFailure := by
  unfold Obligations.B32decLengthFailure
  refine fun s => ⟨b32dec_fails_of_too_long, fun hfit => ⟨_, exec_b32dec_of_fits hfit, ?_⟩⟩
  rw [← failureStatus_badLength, Ne, finish_status_eq_failureStatus_iff]
  exact decodeText_ne_badLength (by rwa [length_inputString])

/-! ### Dropped bits (R86) -/

/-- Symbols and any pad run decode to the closed form (R85). -/
theorem b32dec_completes_of_symbols {s : State} {groups : List (BitVec 5)} {p : Nat} (hne : groups ≠ [])
    (h : HoldsInput s (groups.map alpha ++ List.replicate p padChar)) : Completes .b32dec s (decodedForm groups) := by
  have hlen : groups.length ≤ 128 := by
    have hcap : (groups.map alpha ++ List.replicate p padChar).length ≤ 128 := h.2.1
    rw [List.length_append, List.length_map] at hcap
    omega
  have hfits : (decodedForm groups).length < 256 := by
    rw [length_decodedForm]
    omega
  exact completes_of_ok (decodeText_symbols hne hlen ▸ exec_b32dec_of_holds h) hfits

/-- The same without padding. -/
theorem b32dec_completes_of_unpadded {s : State} {groups : List (BitVec 5)} (hne : groups ≠ [])
    (h : HoldsInput s (groups.map alpha)) : Completes .b32dec s (decodedForm groups) :=
  b32dec_completes_of_symbols (p := 0) hne (by rwa [List.replicate_zero, List.append_nil])

/-- The closed form does not see the last `5m mod 8` bits: each whole byte is cut from above them. -/
theorem decodedForm_congr {g₁ g₂ : List (BitVec 5)} (hlen : g₁.length = g₂.length)
    (h : groupsNumber g₁ >>> (5 * g₁.length % 8) = groupsNumber g₂ >>> (5 * g₂.length % 8)) :
    decodedForm g₁ = decodedForm g₂ := by
  rw [decodedForm, decodedForm, ← hlen]
  refine List.map_congr_left fun j hj => ?_
  have hj := List.mem_range.1 hj
  have above : 5 * g₁.length - 8 * (j + 1) = 5 * g₁.length % 8 + 8 * (5 * g₁.length / 8 - (j + 1)) := by omega
  rw [← hlen] at h
  rw [above, Nat.shiftRight_add, Nat.shiftRight_add, h]

/-- The four texts of R86 are M and a symbol whose last two bits take every value; each decodes to 0x66. -/
theorem groups_of_trailing_texts {text : List Byte}
    (h : text ∈ [asciiBytes "MY", asciiBytes "MZ", asciiBytes "M2", asciiBytes "M3"]) :
    ∃ v : BitVec 5, text = [12#5, v].map alpha ∧ decodedForm [12#5, v] = [0x66#8] := by
  simp only [List.mem_cons, List.not_mem_nil, or_false] at h
  rcases h with rfl | rfl | rfl | rfl
  · exact ⟨24#5, by decide⟩
  · exact ⟨25#5, by decide⟩
  · exact ⟨26#5, by decide⟩
  · exact ⟨27#5, by decide⟩

/-- One symbol is less than a byte. -/
theorem decodedForm_singleton (v : BitVec 5) : decodedForm [v] = [] := by
  simp [← List.length_eq_zero_iff]

/-- Settles O26: every text of symbols decodes to the closed form, which does not see the trailing bits. -/
theorem b32decDropsTrailingBits : Obligations.B32decDropsTrailingBits := by
  unfold Obligations.B32decDropsTrailingBits
  refine ⟨fun s₁ s₂ g₁ g₂ p₁ p₂ hne hlen hbits h₁ h₂ => ?_, fun s text htext h => ?_, fun s v h => ?_⟩
  · have hne₂ : g₂ ≠ [] := by
      rintro rfl
      exact hne (List.length_eq_zero_iff.1 hlen)
    refine ⟨_, b32dec_completes_of_symbols hne h₁, ?_⟩
    rw [decodedForm_congr hlen hbits]
    exact b32dec_completes_of_symbols hne₂ h₂
  · obtain ⟨v, rfl, hbytes⟩ := groups_of_trailing_texts htext
    rw [← hbytes]
    exact b32dec_completes_of_unpadded (List.cons_ne_nil _ _) h
  · rw [← decodedForm_singleton v]
    exact b32dec_completes_of_unpadded (List.cons_ne_nil v []) h

end Sys2Proof.Machine
end

section
/-! SUPPORT. B32ENC, B32PROJ and B32LUT (41_base32_encode.md): what each answers on the string it reads (R100, R110, R115),
the lengths B32ENC serves (R105), and the input it and B32PROJ cannot serve. -/

namespace Sys2Proof.Machine

/-! ### A command that reads the input string -/

section InputCommand

variable {i : Instr} {s : State} {f : List Byte → Except Failure Result}

/-- A command on the input string answers what its function answers on the string that IBUF holds (R55). -/
theorem exec_of_holds {bytes : List Byte} (harm : exec i s = .next (finish ((inputOperand s).bind f) s))
    (h : HoldsInput s bytes) : exec i s = .next (finish (f bytes) s) := by
  rw [harm, inputOperand_of_holds h]
  rfl

/-- ILEN above IBUF_CAP makes it fail with BAD_LENGTH (R162). -/
theorem fails_of_too_long (harm : exec i s = .next (finish ((inputOperand s).bind f) s))
    (h : Config.ibufCap < s.ilen.toNat) : Fails i s 0x0B#8 := by
  rw [inputOperand_of_too_long h] at harm
  exact failureStatus_badLength ▸ fails_of_error harm

end InputCommand

/-! ### B32ENC -/

/-- OBUF holds the text of up to 80 bytes, padded or not, and of no more (R105). -/
theorem obufCap_lt_encodedLength_iff (p : Bool) (n : Nat) : Config.obufCap < encodedLength p n ↔ 80 < n := by
  rw [encodedLength, Config.obufCap]
  cases p
  · simp only [Bool.false_eq_true, if_false]
    omega
  · simp only [if_true]
    omega

/-- The text has the length of R104, rounded up to whole blocks of 8 when padded (R103). -/
theorem length_encodedText (p : Bool) (bytes : List Byte) :
    (if p then padToBlock (encodedForm bytes) else encodedForm bytes).length = encodedLength p bytes.length := by
  cases p
  · exact length_encodedForm bytes
  · have block (l : Nat) : l + (8 - l % 8) % 8 = 8 * ((l + 7) / 8) := by omega
    simp only [if_true, padToBlock, List.length_append, List.length_replicate, block, length_encodedForm]
    rfl

/-- B32ENC on more than 80 bytes (R105). -/
theorem encodeBytes_too_long (p : Bool) {bytes : List Byte} (h : 80 < bytes.length) :
    encodeBytes p bytes = .error .badLength := by
  rw [encodeBytes, if_pos ((obufCap_lt_encodedLength_iff p _).2 h)]

/-- Up to 80 bytes encode to their text (R100, R103). -/
theorem b32enc_completes {s : State} {bytes : List Byte} (p : Bool) (h : HoldsInput s bytes) (hlen : bytes.length ≤ 80) :
    Completes (.b32enc p) s (if p then padToBlock (encodedForm bytes) else encodedForm bytes) := by
  refine completes_of_ok (encodeBytes_fits p hlen ▸ exec_of_holds (exec_b32enc p s) h) ?_
  have fits : ¬ 128 < encodedLength p bytes.length := fun hout =>
    absurd ((obufCap_lt_encodedLength_iff p _).1 hout) (by omega)
  rw [length_encodedText]
  omega

/-- More than 80 bytes fail, whether IBUF holds them or not (R105). -/
theorem b32enc_fails_of_too_long {s : State} (p : Bool) (h : 80 < s.ilen.toNat) : Fails (.b32enc p) s 0x0B#8 := by
  rcases Nat.lt_or_ge Config.ibufCap s.ilen.toNat with hlong | hfit
  · exact fails_of_too_long (exec_b32enc p s) hlong
  · have hexec := exec_of_holds (exec_b32enc p s) (holdsInput_inputString hfit)
    rw [encodeBytes_too_long p (by rwa [length_inputString])] at hexec
    exact failureStatus_badLength ▸ fails_of_error hexec

/-- Settles O30: the length of the text exceeds OBUF exactly above 80 bytes, and 80 bytes fill it. -/
theorem b32encLengthFailure : Obligations.B32encLengthFailure := by
  unfold Obligations.B32encLengthFailure
  refine fun s p => ⟨b32enc_fails_of_too_long p, fun hlen => ?_⟩
  have hfit : s.ilen.toNat ≤ Config.ibufCap := hlen.trans (by decide)
  obtain ⟨t, hexec, ⟨hstatus, holen, -⟩, -⟩ :=
    b32enc_completes p (holdsInput_inputString hfit) (by rwa [length_inputString])
  rw [length_encodedText, length_inputString] at holen
  refine ⟨t, hexec, hstatus, fun h80 => ?_⟩
  rw [holen, h80]
  cases p <;> rfl

/-- Settles O31: a state with ILEN = 0 holds the empty string, whose text is empty and takes no padding. -/
theorem b32encEmptyInput : Obligations.B32encEmptyInput := by
  unfold Obligations.B32encEmptyInput
  intro s p hilen
  have empty : HoldsInput s [] := ⟨by rw [hilen]; rfl, Nat.zero_le _, fun _ hi => absurd hi (Nat.not_lt_zero _)⟩
  have text : (if p then padToBlock (encodedForm []) else encodedForm []) = [] := by cases p <;> rfl
  exact text ▸ b32enc_completes p empty (Nat.zero_le _)

/-! ### B32PROJ -/

/-- Up to 128 bytes become as many characters (R110). -/
theorem b32proj_completes {s : State} {bytes : List Byte} (h : HoldsInput s bytes) :
    Completes .b32proj s (bytes.map projectByte) := by
  have hlen : bytes.length ≤ 128 := h.2.1
  refine completes_of_ok (projectBytes_fits hlen ▸ exec_of_holds (exec_b32proj s) h) ?_
  rw [List.length_map]
  omega

/-- The mask of the projection is the remainder modulo 32, always an index of the table. -/
theorem projectByte_eq_getD (b : Byte) : projectByte b = alphabet.getD (b.toNat % 32) 0x00#8 := by
  have inTable : b.toNat % 32 < alphabet.length := Nat.mod_lt _ (by decide)
  have index : (b.setWidth 5).toNat = b.toNat % 32 := BitVec.toNat_setWidth 5 b
  rw [projectByte_eq_alpha, alpha, index, List.getD_eq_getElem _ _ inTable, List.getD_eq_getElem _ _ inTable]

/-- Settles O32: the projection of the input string, character by character, and the operand's own length failure. -/
theorem b32projProjects : Obligations.B32projProjects := by
  unfold Obligations.B32projProjects
  refine ⟨decode_encode .b32proj, fun s => ⟨fun bytes h => ?_, fails_of_too_long (exec_b32proj s)⟩⟩
  rw [← funext projectByte_eq_getD]
  exact b32proj_completes h

/-! ### B32LUT -/

/-- B32LUT shows the table in every state, for it reads no operand (R115). -/
theorem b32lut_completes (p : Bool) (s : State) : Completes (.b32lut p) s (lookupTable p) :=
  completes_of_ok (exec_b32lut p s) (by cases p <;> decide)

/-- The padded table is the alphabet and PADCHAR, written out (R115). -/
theorem lookupTable_padded : lookupTable true = asciiBytes "ABCDEFGHIJKLMNOPQRSTUVWXYZ234567=" := by decide

/-- Settles O34: the two words and the two tables. -/
theorem b32lutReadsTable : Obligations.B32lutReadsTable := by
  unfold Obligations.B32lutReadsTable
  refine ⟨decode_encode (.b32lut false), decode_encode (.b32lut true), fun s => ⟨?_, ?_⟩⟩
  · rw [← alphabet_eq_asciiBytes]
    exact b32lut_completes false s
  · rw [← lookupTable_padded]
    exact b32lut_completes true s

end Sys2Proof.Machine
end

section
/-! SUPPORT. TRUNCFMT (42_truncate_format.md): the length it demands (R121), what it answers on a digest, stage by stage (R122
to R125), and its six digits read as a number (R126). -/

namespace Sys2Proof.Machine

/-! ### The digest operand (R121) -/

theorem truncfmt_fails_of_length_ne {s : State} (h : s.ilen.toNat ≠ 20) : Fails .truncfmt s 0x0B#8 := by
  have hexec := exec_truncfmt s
  rw [truncateDigest_eq, if_neg h] at hexec
  exact failureStatus_badLength ▸ fails_of_error hexec

theorem exec_truncfmt_of_length_eq {s : State} (h : s.ilen.toNat = 20) :
    exec .truncfmt s = .next (succeed (truncate s.ibuf) s) := by
  rw [exec_truncfmt, truncateDigest_eq, if_pos h, finish_ok]

/-- Settles O38: ILEN decides between the two completions, and OFFSET is cut from the last digest byte. -/
theorem truncfmtDigestLength : Obligations.TruncfmtDigestLength := by
  unfold Obligations.TruncfmtDigestLength
  exact fun s => ⟨truncfmt_fails_of_length_ne, fun h => ⟨_, exec_truncfmt_of_length_eq h, rfl, truncate_offset s.ibuf⟩⟩

/-! ### The stages (R122 to R125) -/

/-- The result string of a truncation is the six digits of its own VALUE (R126). -/
theorem succeed_truncate_shows (ibuf : Memory) (s : State) :
    ShowsSuccess (succeed (truncate ibuf) s) (sixDigits (truncate ibuf).value.toNat) (truncate ibuf).offset
      (truncate ibuf).dbc (truncate ibuf).value := by
  rw [← truncate_bytes]
  refine succeed_shows _ _ ?_
  rw [truncate_bytes, length_sixDigits]
  decide

/-- Settles O37: each register is the number its stage defines; the ranges follow from the two remainders, and the quotient
is that of the second. -/
theorem truncfmtStages : Obligations.TruncfmtStages := by
  unfold Obligations.TruncfmtStages
  intro s h
  have hoffset := truncate_offset s.ibuf
  have hvalue := truncate_value s.ibuf
  have hdbc := truncate_dbc_lt s.ibuf
  have offset_le : (truncate s.ibuf).offset.toNat ≤ 15 := by omega
  have value_le : (truncate s.ibuf).value.toNat ≤ 999999 := by omega
  have quotient_le : (truncate s.ibuf).dbc.toNat / 1000000 ≤ 2147 := by omega
  have division : (truncate s.ibuf).dbc.toNat =
      1000000 * ((truncate s.ibuf).dbc.toNat / 1000000) + (truncate s.ibuf).value.toNat := by
    rw [hvalue, Nat.div_add_mod]
  exact ⟨_, exec_truncfmt_of_length_eq h, finish_keeps (.ok (truncate s.ibuf)) s, succeed_truncate_shows s.ibuf s, hoffset,
    truncate_dbc s.ibuf, hvalue, offset_le, Nat.le_of_lt_succ hdbc, value_le, _, quotient_le, division⟩

/-! ### The digits (R126) -/

theorem toNat_getD_sixDigits (value : Nat) {k : Nat} (hk : k < 6) :
    ((sixDigits value).getD k 0x00#8).toNat = 0x30 + value / 10 ^ (5 - k) % 10 := by
  rw [List.getD_eq_getElem _ _ (by rwa [length_sixDigits])]
  simp only [sixDigits, List.getElem_map, List.getElem_range, BitVec.toNat_ofNat]
  omega

/-- The decimal digits from position `n - 1` down to 0, each at its weight, are the remainder modulo `10 ^ n`. -/
theorem sum_decimal_digits (value n : Nat) :
    ((List.range n).map fun k => value / 10 ^ (n - 1 - k) % 10 * 10 ^ (n - 1 - k)).sum = value % 10 ^ n := by
  induction n with
  | zero => simp [Nat.mod_one]
  | succ n ih =>
    have shift (k : Nat) : n + 1 - 1 - (k + 1) = n - 1 - k := by omega
    simp only [List.range_succ_eq_map, List.map_cons, List.map_map, List.sum_cons, Function.comp_def, Nat.succ_eq_add_one,
      shift, ih]
    rw [Nat.add_sub_cancel, Nat.sub_zero, Nat.mod_pow_succ, Nat.mul_comm, Nat.add_comm]

/-- Settles O39: OBUF holds the six digits of VALUE, a number below 10^6. -/
theorem truncfmtDigitsReadBack : Obligations.TruncfmtDigitsReadBack := by
  unfold Obligations.TruncfmtDigitsReadBack
  intro s t h hexec
  obtain ⟨t', hexec', -, ⟨-, holen, hobuf, -⟩, -, -, -, -, -, hvalue, -⟩ := truncfmtStages s h
  obtain rfl : t = t' := Host.Outcome.next.inj (hexec.symm.trans hexec')
  have digit {k : Nat} (hk : k < 6) : (Memory.read t.obuf k).toNat = 0x30 + t.value.toNat / 10 ^ (5 - k) % 10 := by
    rw [hobuf, toNat_getD_sixDigits _ hk]
  have weighted : ((List.range 6).map fun k => ((Memory.read t.obuf k).toNat - 0x30) * 10 ^ (5 - k)) =
      (List.range 6).map fun k => t.value.toNat / 10 ^ (5 - k) % 10 * 10 ^ (5 - k) :=
    List.map_congr_left fun k hk => by rw [digit (List.mem_range.1 hk), Nat.add_sub_cancel_left]
  refine ⟨BitVec.eq_of_toNat_eq holen, fun k hk => ?_, ?_⟩
  · have hdigit := digit hk
    exact ⟨hdigit, by omega, by omega⟩
  · rw [weighted, sum_decimal_digits _ 6, Nat.mod_eq_of_lt (by omega)]

end Sys2Proof.Machine
end

section
/-! SUPPORT. Completion (43_control.md): what a command other than CLR may show as its result (R137), the flags that a
completion raises (10_state.md R15), and CLR (R138). -/

namespace Sys2Proof.Machine

/-! ### The flags of a completion -/

/-- Every completion sets DONE (10_state.md R15). -/
@[simp] theorem finish_done (o : Except Failure Result) (s : State) : (finish o s).done = true := by
  rw [State.done]
  cases o with
  | ok r =>
    rw [finish_ok, succeed_status]
    decide
  | error f =>
    rw [finish_error, fail_status]
    cases f <;> decide

@[simp] theorem fail_failed (f : Failure) (s : State) : (fail f s).failed = true := by
  rw [State.failed, fail_status]
  cases f <;> decide

/-- A completion without FAIL is a success. -/
theorem eq_ok_of_finish_not_failed {o : Except Failure Result} {s : State} (h : (finish o s).failed = false) :
    ∃ r, o = .ok r := by
  cases o with
  | ok r => exact ⟨r, rfl⟩
  | error f => simp at h

/-! ### The results of the commands (R137) -/

/-- A result string that OBUF holds, and no result register written with anything but 0. -/
structure PlainResult (r : Result) : Prop where
  fits : r.bytes.length ≤ Config.obufCap
  registers : r.offset = 0x00#8 ∧ r.dbc = 0#32 ∧ r.value = 0#32

theorem PlainResult.ofBytes {bytes : List Byte} (h : bytes.length ≤ Config.obufCap) :
    PlainResult { bytes := bytes } := ⟨h, rfl, rfl, rfl⟩

/-- A text that has values is the text of those values (40_base32_decode.md R82). -/
theorem eq_map_alpha_of_symbolValues {text : List Byte} {groups : List (BitVec 5)} (h : symbolValues text = some groups) :
    text = groups.map alpha := by
  have hall : ∀ c ∈ text, isAlpha c = true := by
    intro c hc
    by_contra hforeign
    have := symbolValues_eq_none ⟨c, hc, Bool.eq_false_of_not_eq_true hforeign⟩
    simp [this] at h
  obtain ⟨groups', hgroups', htext⟩ := symbolValues_eq_some hall
  rwa [Option.some.inj (h.symm.trans hgroups')]

/-- The guard of B32DEC bounds what the mapper emits (40_base32_decode.md R85, R90). -/
theorem decodeText_plain {text : List Byte} {r : Result} (h : decodeText text = .ok r) : PlainResult r := by
  simp only [decodeText] at h
  split at h
  · cases h
  · next hfit =>
    split at h
    · cases h
    · split at h
      · next groups hgroups =>
        cases h
        have hlen : (dataSymbols text).length = groups.length := by
          rw [eq_map_alpha_of_symbolValues hgroups, List.length_map]
        refine .ofBytes ?_
        rw [groupsToBytes_eq, length_decodedForm, ← hlen]
        exact Nat.le_of_not_lt hfit
      · cases h

/-- The guard of B32ENC is on the length of the text it emits (41_base32_encode.md R104, R105). -/
theorem encodeBytes_plain {p : Bool} {bytes : List Byte} {r : Result} (h : encodeBytes p bytes = .ok r) :
    PlainResult r := by
  rw [encodeBytes] at h
  split at h
  · cases h
  · next hfit =>
    cases h
    refine .ofBytes ?_
    rw [bytesToSymbols_eq, length_encodedText]
    exact Nat.le_of_not_lt hfit

theorem projectBytes_plain {bytes : List Byte} {r : Result} (h : projectBytes bytes = .ok r) : PlainResult r := by
  rw [projectBytes] at h
  split at h
  · cases h
  · next hfit =>
    cases h
    refine .ofBytes ?_
    rw [List.length_map]
    exact Nat.le_of_not_lt hfit

theorem lookupTable_plain (p : Bool) : PlainResult { bytes := lookupTable p } :=
  .ofBytes (by cases p <;> decide)

/-- A command on the input string answers a plain result if its function does. -/
theorem inputOperand_bind_plain {f : List Byte → Except Failure Result}
    (hf : ∀ {text r}, f text = .ok r → PlainResult r) {s : State} {r : Result} (h : (inputOperand s).bind f = .ok r) :
    PlainResult r := by
  rw [inputOperand] at h
  split at h
  · cases h
  · exact hf h

/-- Every command but CLR and TRUNCFMT completes with a plain result or a failure. -/
theorem exec_eq_finish_plain {i : Instr} (hclr : i ≠ .clr) (htrunc : i ≠ .truncfmt) (s : State) :
    ∃ o, exec i s = .next (finish o s) ∧ ∀ r, o = .ok r → PlainResult r := by
  cases i with
  | clr => exact absurd rfl hclr
  | b32dec => exact ⟨_, exec_b32dec s, fun _ => inputOperand_bind_plain decodeText_plain⟩
  | b32enc p => exact ⟨_, exec_b32enc p s, fun _ => inputOperand_bind_plain encodeBytes_plain⟩
  | b32proj => exact ⟨_, exec_b32proj s, fun _ => inputOperand_bind_plain projectBytes_plain⟩
  | b32lut p =>
    refine ⟨_, exec_b32lut p s, fun r hr => ?_⟩
    cases hr
    exact lookupTable_plain p
  | truncfmt => exact absurd rfl htrunc

/-- The result of TRUNCFMT is six digits (42_truncate_format.md R126). -/
theorem truncateDigest_fits {s : State} {r : Result} (h : truncateDigest s = .ok r) :
    r.bytes.length ≤ Config.obufCap := by
  rw [truncateDigest_eq] at h
  split at h
  · cases h
    rw [truncate_bytes, length_sixDigits]
    decide
  · cases h

/-- What the completion of a command other than CLR can be: a failure, or the success of a result that OBUF holds, which is
plain unless the command is TRUNCFMT. -/
theorem exec_eq_finish_fits {i : Instr} (hclr : i ≠ .clr) (s : State) :
    ∃ o, exec i s = .next (finish o s) ∧
      ∀ r, o = .ok r → r.bytes.length ≤ Config.obufCap ∧ (i ≠ .truncfmt → PlainResult r) := by
  by_cases htrunc : i = .truncfmt
  · subst htrunc
    exact ⟨_, exec_truncfmt s, fun r hr => ⟨truncateDigest_fits hr, fun hne => absurd rfl hne⟩⟩
  · obtain ⟨o, hexec, hplain⟩ := exec_eq_finish_plain hclr htrunc s
    exact ⟨o, hexec, fun r hr => ⟨(hplain r hr).fits, fun _ => hplain r hr⟩⟩

/-- Settles O14: without FAIL the completion is the success of a result that OBUF holds. -/
theorem successfulCompletion : Obligations.SuccessfulCompletion := by
  unfold Obligations.SuccessfulCompletion
  intro i s t hclr hexec hfail
  obtain ⟨o, hfinish, hresult⟩ := exec_eq_finish_fits hclr s
  obtain rfl : finish o s = t := Host.Outcome.next.inj (hfinish.symm.trans hexec)
  obtain ⟨r, rfl⟩ := eq_ok_of_finish_not_failed hfail
  obtain ⟨hfits, hplain⟩ := hresult r rfl
  have hbyte : r.bytes.length < 256 := hfits.trans_lt (by decide)
  exact ⟨⟨r.bytes, r.offset, r.dbc, r.value, hfits, succeed_shows r s hbyte, fun hne => (hplain hne).registers⟩,
    finish_keeps (.ok r) s⟩

/-! ### CLR (R138) -/

/-- CLR leaves the reset state, the port's own lists apart. -/
theorem clearBlock_eq_reset (s : State) :
    clearBlock s = { State.reset with pending := s.pending, replies := s.replies } := rfl

@[simp] theorem clearBlock_clearBlock (s : State) : clearBlock (clearBlock s) = clearBlock s := rfl

/-- Only CLR leaves DONE = 0. -/
theorem exec_done {i : Instr} (hclr : i ≠ .clr) {s t : State} (h : exec i s = .next t) : t.done = true := by
  obtain ⟨o, hfinish⟩ := exec_eq_finish hclr s
  cases hfinish.symm.trans h
  exact finish_done o s

/-- CLR with the P bit set is not one of the legal words (30_encoding.md R63). -/
theorem decode_clr_padded (i : Instr) : decode 0x08#8 ≠ .ok i := fun h =>
  absurd ((exists_decode_eq_ok_iff 0x08#8).1 ⟨i, h⟩) (by decide)

/-- Settles O11: the words of CLR, DONE after the other commands, then the cleared state field by field. -/
theorem clrRestoresReset : Obligations.ClrRestoresReset := by
  unfold Obligations.ClrRestoresReset
  refine ⟨decode_encode .clr, decode_clr_padded, fun i s t hclr => exec_done hclr, fun s => ⟨clearBlock s, exec_clr s, ?_⟩⟩
  have hcfg : readRegister 0x07#8 (clearBlock s) = readRegister 0x07#8 s := by
    rw [readRegister_cfg, readRegister_cfg]
  have hagain : exec .clr (clearBlock s) = .next (clearBlock s) := by
    rw [exec_clr, clearBlock_clearBlock]
  exact ⟨Memory.read_nil, rfl, Memory.read_nil, rfl, rfl, rfl, rfl, rfl, hcfg, clearBlock_eq_reset s, hagain⟩

end Sys2Proof.Machine
end

section
/-! SUPPORT. The counter of the environment (45_environment_totp_engine.md R143): its bytes as base-256 digits, most
significant first. -/

namespace Sys2Proof.Machine

/-- The low `n` bytes of a number, most significant first: the form of R143 for any width. -/
def bigEndianBytes (n value : Nat) : List Byte :=
  (List.range n).map fun j => BitVec.ofNat 8 (value >>> (8 * (n - 1 - j)))

theorem be64_eq_bigEndianBytes (step : Nat) : be64 step = bigEndianBytes 8 step := rfl

@[simp] theorem length_bigEndianBytes (n value : Nat) : (bigEndianBytes n value).length = n := by
  simp [bigEndianBytes]

theorem toNat_getD_bigEndianBytes (value : Nat) {n j : Nat} (hj : j < n) :
    ((bigEndianBytes n value).getD j 0x00#8).toNat = (value >>> (8 * (n - 1 - j))) % 256 := by
  rw [List.getD_eq_getElem _ _ (by rwa [length_bigEndianBytes])]
  simp only [bigEndianBytes, List.getElem_map, List.getElem_range, BitVec.toNat_ofNat]

/-- The last byte is the low one, and those before it are the bytes of the number without it. -/
theorem bigEndianBytes_succ (n value : Nat) :
    bigEndianBytes (n + 1) value = bigEndianBytes n (value >>> 8) ++ [BitVec.ofNat 8 value] := by
  have higher : ∀ j, j < n → value >>> (8 * (n + 1 - 1 - j)) = (value >>> 8) >>> (8 * (n - 1 - j)) := by
    intro j hj
    rw [← Nat.shiftRight_add, show 8 * (n + 1 - 1 - j) = 8 + 8 * (n - 1 - j) by omega]
  rw [bigEndianBytes, List.range_succ, List.map_append]
  congr 1
  · exact List.map_congr_left fun j hj => by rw [higher j (List.mem_range.1 hj)]
  · simp

/-- Read to base 256, the low `n` bytes are the remainder modulo `256 ^ n`. -/
theorem bytesNumber_bigEndianBytes (n value : Nat) : bytesNumber (bigEndianBytes n value) = value % 256 ^ n := by
  induction n generalizing value with
  | zero => simp [bigEndianBytes, bytesNumber, Nat.mod_one]
  | succ n ih =>
    calc bytesNumber (bigEndianBytes (n + 1) value)
      _ = (value >>> 8) % 256 ^ n * 256 + value % 256 := by
        rw [bigEndianBytes_succ, bytesNumber_append, ih, BitVec.toNat_ofNat]
      _ = value / 256 % 256 ^ n * 256 + value % 256 := by rw [Nat.shiftRight_eq_div_pow]
      _ = value % 256 ^ (n + 1) := by rw [Nat.pow_succ', Nat.mod_mul, Nat.mul_comm, Nat.add_comm]

/-- Settles O50: the counter is the case of eight bytes, and a step below 2^64 is its own remainder. -/
theorem counterIsBigEndian : Obligations.CounterIsBigEndian := by
  unfold Obligations.CounterIsBigEndian
  intro step hstep
  rw [be64_eq_bigEndianBytes]
  have number : bytesNumber (bigEndianBytes 8 step) = step := by
    rw [bytesNumber_bigEndianBytes]
    exact Nat.mod_eq_of_lt hstep
  have byte {j : Nat} (hj : j < 8) :
      ((bigEndianBytes 8 step).getD j 0x00#8).toNat = (step >>> (8 * (7 - j))) &&& 0xFF := by
    rw [toNat_getD_bigEndianBytes step hj]
    exact (Nat.and_two_pow_sub_one_eq_mod _ 8).symm
  exact ⟨length_bigEndianBytes 8 step, number, fun j => byte⟩

end Sys2Proof.Machine
end

section
/-! SUPPORT. The failures (60_exceptions.md): what a failed completion shows (R165), when each command raises INVALID_ENCODING
(R161) and BAD_LENGTH (R162), and which failure is reported when several hold (R164). -/

namespace Sys2Proof.Machine

/-! ### The failed completion (R165) -/

theorem failureCode_ne_zero (f : Failure) : failureCode f ≠ 0#2 := by cases f <;> decide

/-- ERR holds the code of the failure (R160). -/
@[simp] theorem fail_err (f : Failure) (s : State) : (fail f s).err = failureCode f := by
  rw [State.err, fail_status]
  cases f <;> decide

/-- Only a failure sets FAIL. -/
theorem eq_error_of_finish_failed {o : Except Failure Result} {s : State} (h : (finish o s).failed = true) :
    ∃ f, o = .error f := by
  cases o with
  | ok r => exact absurd h (by rw [State.failed, finish_ok, succeed_status]; decide)
  | error f => exact ⟨f, rfl⟩

/-- A word written to CMD clears the block or completes with an outcome (43_control.md R136, R138). -/
theorem runCommand_eq_clear_or_finish {w : BitVec 8} {s t : State} (h : runCommand w s = .next t) :
    t = clearBlock s ∨ ∃ o, t = finish o s := by
  cases hw : decode w with
  | ok i =>
    rw [runCommand_of_ok hw] at h
    by_cases hclr : i = .clr
    · subst hclr
      exact .inl (Host.Outcome.next.inj h).symm
    · obtain ⟨o, hfinish⟩ := exec_eq_finish hclr s
      exact .inr ⟨o, Host.Outcome.next.inj (h.symm.trans hfinish)⟩
  | error e => exact .inr ⟨_, Host.Outcome.next.inj (h.symm.trans (runCommand_of_error hw s))⟩

/-- FAIL after a word written to CMD means that the word completed as a failure. -/
theorem eq_fail_of_runCommand_failed {w : BitVec 8} {s t : State} (h : runCommand w s = .next t)
    (hfail : t.failed = true) : ∃ f, t = fail f s := by
  rcases runCommand_eq_clear_or_finish h with rfl | ⟨o, rfl⟩
  · exact absurd hfail (by rw [State.failed, clearBlock_status]; decide)
  · obtain ⟨f, rfl⟩ := eq_error_of_finish_failed hfail
    exact ⟨f, rfl⟩

/-- Settles O13: FAIL tells that the completion is a failure, whose code is not 0 and stands in STATUS. -/
theorem failedCompletionZeroesOutputs : Obligations.FailedCompletionZeroesOutputs := by
  unfold Obligations.FailedCompletionZeroesOutputs
  intro v s t h hfail
  rw [perform_writeCmd] at h
  obtain ⟨f, rfl⟩ := eq_fail_of_runCommand_failed h hfail
  exact ⟨failureCode f, failureCode_ne_zero f, fail_err f s, finish_done (.error f) s, fail_shows f s,
    finish_keeps (.error f) s⟩

/-! ### What each command's outcome is when it is a failure -/

/-- The status that a command leaves is that of a failure exactly when its outcome is that failure (R160). -/
theorem status_eq_failureStatus_iff {i : Instr} {s t : State} {o : Except Failure Result} {f : Failure}
    (h : exec i s = .next t) (harm : exec i s = .next (finish o s)) : t.status = failureStatus f ↔ o = .error f := by
  obtain rfl : finish o s = t := Host.Outcome.next.inj (harm.symm.trans h)
  exact finish_status_eq_failureStatus_iff

/-- CLR does not leave the status of a failure (43_control.md R138). -/
theorem clr_status_ne_failureStatus {s t : State} (h : exec .clr s = .next t) (f : Failure) :
    t.status ≠ failureStatus f := by
  obtain rfl : clearBlock s = t := Host.Outcome.next.inj h
  rw [clearBlock_status]
  cases f <;> decide

/-- A command on the input string fails by ILEN, or as its function does on a string that IBUF holds. -/
theorem inputOperand_bind_eq_error_iff {g : List Byte → Except Failure Result} {s : State} {f : Failure} :
    (inputOperand s).bind g = .error f ↔
      f = .badLength ∧ Config.ibufCap < s.ilen.toNat ∨
        s.ilen.toNat ≤ Config.ibufCap ∧ g (inputString s) = .error f := by
  rcases Nat.lt_or_ge Config.ibufCap s.ilen.toNat with hlong | hfit
  · rw [inputOperand_of_too_long hlong]
    simp [Except.bind, hlong, Nat.not_le_of_lt hlong, eq_comm]
  · rw [inputOperand_of_holds (holdsInput_inputString hfit)]
    simp [Except.bind, hfit, Nat.not_lt_of_le hfit]

/-- The length failure of such a command (R162). -/
theorem inputOperand_bind_eq_badLength_iff {g : List Byte → Except Failure Result} {s : State} :
    (inputOperand s).bind g = .error .badLength ↔
      Config.ibufCap < s.ilen.toNat ∨ g (inputString s) = .error .badLength := by
  rw [inputOperand_bind_eq_error_iff, ← Nat.not_lt]
  tauto

theorem encodeBytes_eq_error_iff {p : Bool} {bytes : List Byte} {f : Failure} :
    encodeBytes p bytes = .error f ↔ f = .badLength ∧ Config.obufCap < encodedLength p bytes.length := by
  rw [encodeBytes]
  split
  · next hlong => simp [hlong, eq_comm]
  · next hfit => simp [hfit]

theorem projectBytes_eq_error_iff {bytes : List Byte} {f : Failure} :
    projectBytes bytes = .error f ↔ f = .badLength ∧ Config.obufCap < bytes.length := by
  rw [projectBytes]
  split
  · next hlong => simp [hlong, eq_comm]
  · next hfit => simp [hfit]

theorem truncateDigest_eq_error_iff {s : State} {f : Failure} :
    truncateDigest s = .error f ↔ f = .badLength ∧ s.ilen.toNat ≠ 20 := by
  rw [truncateDigest_eq]
  split
  · next hlen => simp [hlen]
  · next hlen => simp [hlen, eq_comm]

/-! ### INVALID_ENCODING (R161) -/

/-- A data symbol is a byte of the text with a byte at or after it that is not padding (40_base32_decode.md R81): the last
data symbol is one. -/
theorem exists_getElem_of_mem_dataSymbols {text : List Byte} {c : Byte} (hc : c ∈ dataSymbols text) :
    ∃ (i j : Nat) (hij : i ≤ j) (hj : j < text.length), text[i] = c ∧ text[j] ≠ padChar := by
  obtain ⟨i, hi, rfl⟩ := List.getElem_of_mem hc
  obtain ⟨split, hlast⟩ := dataSymbols_split text
  have hlen := length_dataSymbols_le text
  have get (k : Nat) (hk : k < (dataSymbols text).length) : text[k] = (dataSymbols text)[k] := by
    rw [List.getElem_of_eq split, List.getElem_append_left hk]
  refine ⟨i, (dataSymbols text).length - 1, by omega, by omega, get i hi, ?_⟩
  rw [get _ (by omega)]
  refine hlast _ ?_
  rw [List.getLast?_eq_getElem?, List.getElem?_eq_getElem]

/-- The data symbols of the input are the bytes of IBUF below the pad run (40_base32_decode.md R81). -/
theorem mem_dataSymbols_inputString_iff {s : State} {c : Byte} :
    c ∈ dataSymbols (inputString s) ↔ ∃ a, IsData s a ∧ Memory.read s.ibuf a = c := by
  constructor
  · intro hc
    obtain ⟨i, j, hij, hj, rfl, hpad⟩ := exists_getElem_of_mem_dataSymbols hc
    rw [getElem_inputString] at hpad
    rw [length_inputString] at hj
    exact ⟨i, ⟨j, hij, hj, hpad⟩, (getElem_inputString s i _).symm⟩
  · rintro ⟨a, hdata, rfl⟩
    exact read_mem_dataSymbols hdata

/-- There is no data symbol exactly when every input byte is padding (40_base32_decode.md R88). -/
theorem dataSymbols_inputString_eq_nil_iff {s : State} :
    dataSymbols (inputString s) = [] ↔ ∀ a, a < s.ilen.toNat → Memory.read s.ibuf a = 0x3D#8 := by
  rw [List.eq_nil_iff_forall_not_mem]
  constructor
  · intro hnone a ha
    by_contra hpad
    exact hnone _ (read_mem_dataSymbols ⟨a, le_rfl, ha, hpad⟩)
  · intro hall c hc
    obtain ⟨a, ⟨j, -, hj, hpad⟩, -⟩ := mem_dataSymbols_inputString_iff.1 hc
    exact hpad (hall j hj)

/-- A text that IBUF holds fails to decode in the two cases of R161, and in them only: data symbols all in the alphabet have
values. -/
theorem decodeText_eq_invalidEncoding_iff {text : List Byte} (hfit : text.length ≤ Config.ibufCap) :
    decodeText text = .error .invalidEncoding ↔
      dataSymbols text = [] ∨ ∃ c ∈ dataSymbols text, isAlpha c = false := by
  constructor
  · intro h
    by_contra hgood
    simp only [not_or, not_exists, not_and, Bool.not_eq_false] at hgood
    obtain ⟨hsome, hsymbols⟩ := hgood
    obtain ⟨groups, hgroups, -⟩ := symbolValues_eq_some hsymbols
    simp only [decodeText, if_neg (decoded_fits hfit), List.length_eq_zero_iff, if_neg hsome, hgroups] at h
    cases h
  · rintro (hnone | hforeign)
    · exact decodeText_of_no_data hnone
    · exact decodeText_of_foreign hfit hforeign

/-- The same, read off IBUF. -/
theorem decodeText_inputString_eq_invalidEncoding_iff {s : State} (hfit : s.ilen.toNat ≤ Config.ibufCap) :
    decodeText (inputString s) = .error .invalidEncoding ↔
      (∀ a, a < s.ilen.toNat → Memory.read s.ibuf a = 0x3D#8) ∨
        ∃ a, IsData s a ∧ ¬ InAlphabet (Memory.read s.ibuf a) := by
  rw [decodeText_eq_invalidEncoding_iff (by rwa [length_inputString]), dataSymbols_inputString_eq_nil_iff]
  simp only [mem_dataSymbols_inputString_iff, isAlpha_eq_false_iff]
  exact or_congr_right ⟨fun ⟨_, ⟨a, hdata, hread⟩, hforeign⟩ => ⟨a, hdata, hread ▸ hforeign⟩,
    fun ⟨a, hdata, hforeign⟩ => ⟨_, ⟨a, hdata, rfl⟩, hforeign⟩⟩

/-- The commands other than B32DEC fail with BAD_LENGTH or not at all (R160). -/
theorem status_ne_invalidEncoding {i : Instr} (hi : i ≠ .b32dec) {s t : State} (h : exec i s = .next t) :
    t.status ≠ failureStatus .invalidEncoding := by
  cases i with
  | clr => exact clr_status_ne_failureStatus h _
  | b32dec => exact absurd rfl hi
  | b32enc p =>
    rw [Ne, status_eq_failureStatus_iff h (exec_b32enc p s), inputOperand_bind_eq_error_iff, encodeBytes_eq_error_iff]
    simp
  | b32proj =>
    rw [Ne, status_eq_failureStatus_iff h (exec_b32proj s), inputOperand_bind_eq_error_iff, projectBytes_eq_error_iff]
    simp
  | b32lut p =>
    rw [Ne, status_eq_failureStatus_iff h (exec_b32lut p s)]
    nofun
  | truncfmt =>
    rw [Ne, status_eq_failureStatus_iff h (exec_truncfmt s), truncateDigest_eq_error_iff]
    simp

/-- Settles O17: the other commands never raise it, and B32DEC does exactly when the string it reads does not decode. -/
theorem invalidEncodingExactly : Obligations.InvalidEncodingExactly := by
  unfold Obligations.InvalidEncodingExactly
  intro i s t h
  rw [← failureStatus_invalidEncoding]
  by_cases hi : i = .b32dec
  · subst hi
    rw [status_eq_failureStatus_iff h (exec_b32dec s), inputOperand_bind_eq_error_iff]
    simp only [reduceCtorEq, false_and, false_or, true_and]
    exact and_congr_right decodeText_inputString_eq_invalidEncoding_iff
  · simp only [status_ne_invalidEncoding hi h, hi, false_and]

/-! ### BAD_LENGTH (R162) -/

theorem length_dataSymbols (text : List Byte) : (dataSymbols text).length = text.length - padRun text := by
  rw [dataSymbols, List.length_take]
  omega

/-- B32DEC's own length failure is the test of the result length, which comes first (40_base32_decode.md R90). -/
theorem decodeText_eq_badLength_iff {text : List Byte} :
    decodeText text = .error .badLength ↔ Config.obufCap < 5 * (text.length - padRun text) / 8 := by
  rw [← length_dataSymbols]
  simp only [decodeText]
  split
  · next hlong => simp [hlong]
  · next hfit =>
    refine iff_of_false ?_ hfit
    split
    · nofun
    · split <;> nofun

/-- The padded text is the unpadded one and the padding of R103. -/
theorem encodedLength_padded (bytes : List Byte) :
    encodedLength true bytes.length = symbolCount bytes.length + padCount bytes.length := by
  rw [← length_encodedText, if_pos rfl, padToBlock_encodedForm, List.length_append, length_encodedForm,
    List.length_replicate]

/-- B32ENC's length failures, for both P. -/
theorem b32enc_status_eq_badLength_iff {p : Bool} {s t : State} (h : exec (.b32enc p) s = .next t) :
    t.status = failureStatus .badLength ↔
      Config.ibufCap < s.ilen.toNat ∨ Config.obufCap < encodedLength p (inputString s).length := by
  rw [status_eq_failureStatus_iff h (exec_b32enc p s), inputOperand_bind_eq_badLength_iff, encodeBytes_eq_error_iff]
  simp only [true_and]

/-- Settles O18: each command's outcome is BAD_LENGTH by its own rule. -/
theorem badLengthExactly : Obligations.BadLengthExactly := by
  unfold Obligations.BadLengthExactly
  intro i s t h
  rw [← failureStatus_badLength]
  cases i with
  | clr => exact iff_of_false (clr_status_ne_failureStatus h _) id
  | b32dec =>
    rw [status_eq_failureStatus_iff h (exec_b32dec s), inputOperand_bind_eq_badLength_iff, decodeText_eq_badLength_iff,
      length_inputString]
  | b32enc p =>
    rw [b32enc_status_eq_badLength_iff h]
    cases p with
    | false => rw [length_inputString]; rfl
    | true => rw [encodedLength_padded, length_inputString]
  | b32proj =>
    rw [status_eq_failureStatus_iff h (exec_b32proj s), inputOperand_bind_eq_badLength_iff, projectBytes_eq_error_iff,
      length_inputString]
    simp only [true_and]
  | b32lut p =>
    rw [status_eq_failureStatus_iff h (exec_b32lut p s)]
    exact iff_of_false nofun id
  | truncfmt =>
    rw [status_eq_failureStatus_iff h (exec_truncfmt s), truncateDigest_eq_error_iff]
    simp only [true_and]

/-! ### Priority (R164) -/

/-- Every command that reads its input fails with BAD_LENGTH when IBUF cannot hold it, whatever IBUF holds. -/
theorem fails_badLength_of_too_long {i : Instr} (hclr : i ≠ .clr) (hlut : ∀ p, i ≠ .b32lut p) {s : State}
    (h : Config.ibufCap < s.ilen.toNat) : Fails i s 0x0B#8 := by
  cases i with
  | clr => exact absurd rfl hclr
  | b32dec => exact b32dec_fails_of_too_long h
  | b32enc p => exact fails_of_too_long (exec_b32enc p s) h
  | b32proj => exact fails_of_too_long (exec_b32proj s) h
  | b32lut p => exact absurd rfl (hlut p)
  | truncfmt =>
    have hlen : 128 < s.ilen.toNat := h
    exact truncfmt_fails_of_length_ne (by omega)

/-- An empty input has no data symbol and is no digest. -/
theorem empty_input_fails {s : State} (h : s.ilen = 0x00#8) : Fails .b32dec s 0x07#8 ∧ Fails .truncfmt s 0x0B#8 := by
  have hlen : s.ilen.toNat = 0 := by rw [h]; rfl
  exact ⟨b32dec_fails_of_all_padding (by omega) fun a ha => absurd ha (by omega),
    truncfmt_fails_of_length_ne (by omega)⟩

theorem illegal_word_reports_illegalCmd {w : BitVec 8} (h : ∀ i, decode w ≠ .ok i) (s : State) :
    ∃ t, perform (.writeReg 0x00#8 w.toNat) s = .next t ∧ t.status = 0x0F#8 :=
  ⟨_, perform_illegal_word h s, failureStatus_illegalCmd⟩

/-- B32DEC with the P bit set is not one of the legal words (30_encoding.md R63). -/
theorem decode_b32dec_padded (i : Instr) : decode 0x09#8 ≠ .ok i := fun h =>
  absurd ((exists_decode_eq_ok_iff 0x09#8).1 ⟨i, h⟩) (by decide)

/-- Settles O19: the word is tested before the input, and its length before its bytes; 0x09 is an illegal word. -/
theorem failurePriority : Obligations.FailurePriority := by
  unfold Obligations.FailurePriority
  exact ⟨fun w s hw => illegal_word_reports_illegalCmd hw s,
    fun i s hclr hlut => fails_badLength_of_too_long hclr hlut,
    fun s => empty_input_fails,
    fun s _ => illegal_word_reports_illegalCmd decode_b32dec_padded s⟩

end Sys2Proof.Machine
end

section
/-! SUPPORT. The encoding and the alphabet as bijections (30_encoding.md R60 to R62, R65, R67): what the laws of the decoder
and of the symbols settle. -/

namespace Sys2Proof.Machine

/-- Settles O4: the decoder and the encoder invert each other. -/
theorem encodingRoundTrip : Obligations.EncodingRoundTrip := by
  unfold Obligations.EncodingRoundTrip
  exact ⟨fun i _ => decode_encode i, fun _ _ => encode_of_decode⟩

/-- Settles O6: the eight words are the words of the eight commands. -/
theorem legalWordsDecode : Obligations.LegalWordsDecode := by
  unfold Obligations.LegalWordsDecode
  exact ⟨decode_encode .clr, decode_encode .b32dec, decode_encode (.b32enc false), decode_encode (.b32enc true),
    decode_encode .b32proj, decode_encode (.b32lut false), decode_encode (.b32lut true), decode_encode .truncfmt⟩

/-- The code points of the alphabet: A to Z, then 2 to 7 (R65). -/
theorem alpha_toNat : ∀ v : BitVec 5, (alpha v).toNat = if v.toNat ≤ 25 then 0x41 + v.toNat else 0x18 + v.toNat := by
  decide

/-- ALPHA gives alphabet bytes only (R65). -/
theorem inAlphabet_alpha (v : BitVec 5) : InAlphabet (alpha v) :=
  (isAlpha_iff_inAlphabet _).1 (by rw [isAlpha, symbolValue_alpha]; rfl)

/-- Settles O35: VAL undoes ALPHA, ALPHA undoes VAL, and VAL is defined on the alphabet's bytes. -/
theorem alphabetBijection : Obligations.AlphabetBijection := by
  unfold Obligations.AlphabetBijection
  exact ⟨fun v => ⟨symbolValue_alpha v, alpha_toNat v⟩, isAlpha_iff_inAlphabet, alpha_of_symbolValue⟩

end Sys2Proof.Machine
end

section
/-! SUPPORT. One event at the port (20_memory.md R41 to R45, R51): what a host access of each kind does, and where the model
stops. -/

namespace Sys2Proof.Machine

/-! ### Buffer accesses (R41, R45) -/

section Buffers

variable {i : Nat}

theorem perform_readIbuf (h : i < Config.ibufCap) (s : State) :
    perform (.readIbuf i) s = .next (reply ((Memory.read s.ibuf i).setWidth 32) s) := by
  rw [perform, if_pos h]

theorem perform_readObuf (h : i < Config.obufCap) (s : State) :
    perform (.readObuf i) s = .next (reply ((Memory.read s.obuf i).setWidth 32) s) := by
  rw [perform, if_pos h]

theorem perform_readIbuf_missing (h : Config.ibufCap ≤ i) (s : State) :
    perform (.readIbuf i) s = .fault (.noIbufElement i) := by
  rw [perform, if_neg (Nat.not_lt_of_le h)]

theorem perform_writeIbuf_missing (h : Config.ibufCap ≤ i) (b : Byte) (s : State) :
    perform (.writeIbuf i b) s = .fault (.noIbufElement i) := by
  rw [perform, if_neg (Nat.not_lt_of_le h)]

theorem perform_readObuf_missing (h : Config.obufCap ≤ i) (s : State) :
    perform (.readObuf i) s = .fault (.noObufElement i) := by
  rw [perform, if_neg (Nat.not_lt_of_le h)]

theorem perform_writeObuf_missing (h : Config.obufCap ≤ i) (b : Byte) (s : State) :
    perform (.writeObuf i b) s = .fault (.noObufElement i) := by
  rw [perform, if_neg (Nat.not_lt_of_le h)]

end Buffers

/-- A register read answers and changes nothing else (R43). -/
theorem perform_readReg (n : BitVec 8) (s : State) :
    perform (.readReg n) s = .next (reply (readRegister n s) s) := rfl

/-- The platform's reset clears the block (70_reset_and_hazards.md R180). -/
theorem perform_reset (s : State) : perform .reset s = .next (clearBlock s) := rfl

/-- Settles O43: the two rules of a buffer read. -/
theorem bufferReads : Obligations.BufferReads := by
  unfold Obligations.BufferReads
  exact fun s i => ⟨fun h => perform_readIbuf h s, fun h => perform_readObuf h s⟩

/-- Settles O46: the write is the canonical one, whose reads are known. -/
theorem ibufWriteStores : Obligations.IbufWriteStores := by
  unfold Obligations.IbufWriteStores
  intro s i b hinv hi
  have hwf := hinv.ibufCanonical
  exact ⟨storeIbuf i b s, perform_writeIbuf hi b s, Memory.read_write_same hwf i b,
    fun a ha => Memory.read_write_other hwf ha b, rfl⟩

/-! ### Register reads (R28) -/

/-- The reserved register numbers read 0 (R45). -/
theorem readRegister_reserved {n : BitVec 8} (h : 0x08 ≤ n.toNat) (s : State) : readRegister n s = 0#32 := by
  rw [readRegister]
  split
  case h_8 => rfl
  all_goals omega

/-- Settles O42: the numbers 1 to 7 by their rows of R28, then CMD and the reserved numbers. -/
theorem registerReads : Obligations.RegisterReads := by
  unfold Obligations.RegisterReads
  intro s n
  have other (w : BitVec 8) (h : n.toNat ≠ w.toNat) : n ≠ w := fun hw => h (congrArg BitVec.toNat hw)
  rw [perform_readReg, reply]
  congr 4
  rw [readRegister]
  split
  case h_8 h₁ h₂ h₃ h₄ h₅ h₆ h₇ =>
    rw [if_neg (other 0x01#8 h₁), if_neg (other 0x02#8 h₂), if_neg (other 0x03#8 h₃), if_neg (other 0x04#8 h₄),
      if_neg (other 0x05#8 h₅), if_neg (other 0x06#8 h₆), if_neg (other 0x07#8 h₇)]
  all_goals
    next h => simp [BitVec.toNat_eq, h, cfgWord_eq]

/-- Settles O45: the reserved numbers are neither CMD nor ILEN, and every access to a missing element faults. -/
theorem reservedAndMissingAccesses : Obligations.ReservedAndMissingAccesses := by
  unfold Obligations.ReservedAndMissingAccesses
  refine ⟨fun s n v h => ⟨readRegister_reserved h s, perform_writeReg_ignored ?_ ?_ v s⟩, fun s i b h => ?_⟩
  · rintro rfl
    exact absurd h (by decide)
  · rintro rfl
    exact absurd h (by decide)
  · exact ⟨perform_readIbuf_missing h s, perform_writeIbuf_missing h b s, perform_readObuf_missing h s,
      perform_writeObuf_missing h b s⟩

/-- Settles O49: reset and CLR both clear the block. -/
theorem resetEventRestoresReset : Obligations.ResetEventRestoresReset := by
  unfold Obligations.ResetEventRestoresReset
  exact fun s => ⟨congrArg Host.Outcome.next (clearBlock_eq_reset s), (perform_reset s).trans (exec_clr s).symm⟩

/-! ### The step (R51) -/

/-- A block with nothing pending stays as it is (log 2). -/
theorem step_of_idle {s : State} (h : s.pending = []) : step s = .next s := by rw [step, serveNext, h]

/-- Settles O8: the oldest event is taken from the list and performed. -/
theorem stepServesOldestEvent : Obligations.StepServesOldestEvent := by
  unfold Obligations.StepServesOldestEvent
  exact ⟨fun _ _ _ => step_of_pending, fun _ => step_of_idle⟩

/-- Settles O7: a pending CMD write runs the word it carries. -/
theorem stepRunsDecodedCommand : Obligations.StepRunsDecodedCommand := by
  unfold Obligations.StepRunsDecodedCommand
  intro s v rest i hpending hdecode
  rw [step_of_pending hpending, perform_writeCmd, runCommand_of_ok hdecode]
  rfl

/-- Every command completes in every state (43_control.md R139). -/
theorem exec_completes (i : Instr) (s : State) : ∃ t, exec i s = .next t := by
  by_cases hclr : i = .clr
  · exact ⟨_, hclr ▸ exec_clr s⟩
  · obtain ⟨o, h⟩ := exec_eq_finish hclr s
    exact ⟨_, h⟩

/-- So does every word, legal or not. -/
theorem runCommand_completes (w : BitVec 8) (s : State) : ∃ t, runCommand w s = .next t := by
  cases hw : decode w with
  | ok i => exact runCommand_of_ok hw s ▸ exec_completes i s
  | error e => exact ⟨_, runCommand_of_error hw s⟩

/-- Settles O10: a command clears or completes, and an illegal word completes as a failure. -/
theorem everyCommandCompletes : Obligations.EveryCommandCompletes := by
  unfold Obligations.EveryCommandCompletes
  exact ⟨exec_completes, fun v s => runCommand_completes (BitVec.ofNat 8 v) s⟩

/-- A register write always completes: a command, a new ILEN, or nothing (R44, R45). -/
theorem perform_writeReg_completes (n : BitVec 8) (v : Nat) (s : State) : ∃ t, perform (.writeReg n v) s = .next t := by
  by_cases hcmd : n = 0x00#8
  · exact hcmd ▸ runCommand_completes (BitVec.ofNat 8 v) s
  · by_cases hilen : n = 0x02#8
    · exact ⟨_, hilen ▸ perform_writeIlen v s⟩
    · exact ⟨s, perform_writeReg_ignored hcmd hilen v s⟩

/-- Settles O9: of the seven kinds of event only the buffer accesses can fault, and they do at a missing element. -/
theorem stepStopsOnlyOutsideBuffers : Obligations.StepStopsOnlyOutsideBuffers := by
  unfold Obligations.StepStopsOnlyOutsideBuffers
  intro s
  cases hpending : s.pending with
  | nil => exact .inl ⟨s, step_of_idle hpending⟩
  | cons e rest =>
    rw [step_of_pending hpending]
    generalize setPending rest s = u
    cases e with
    | writeIbuf i b =>
      rcases Nat.lt_or_ge i Config.ibufCap with hi | hi
      · exact .inl ⟨_, perform_writeIbuf hi b u⟩
      · exact .inr (.inl ⟨i, _, rest, rfl, hi, .inr ⟨b, rfl⟩, perform_writeIbuf_missing hi b u⟩)
    | readIbuf i =>
      rcases Nat.lt_or_ge i Config.ibufCap with hi | hi
      · exact .inl ⟨_, perform_readIbuf hi u⟩
      · exact .inr (.inl ⟨i, _, rest, rfl, hi, .inl rfl, perform_readIbuf_missing hi u⟩)
    | writeObuf i b =>
      rcases Nat.lt_or_ge i Config.obufCap with hi | hi
      · exact .inl ⟨u, perform_writeObuf_ignored hi b u⟩
      · exact .inr (.inr ⟨i, _, rest, rfl, hi, .inr ⟨b, rfl⟩, perform_writeObuf_missing hi b u⟩)
    | readObuf i =>
      rcases Nat.lt_or_ge i Config.obufCap with hi | hi
      · exact .inl ⟨_, perform_readObuf hi u⟩
      · exact .inr (.inr ⟨i, _, rest, rfl, hi, .inl rfl, perform_readObuf_missing hi u⟩)
    | writeReg n v => exact .inl (perform_writeReg_completes n v u)
    | readReg n => exact .inl ⟨_, perform_readReg n u⟩
    | reset => exact .inl ⟨_, perform_reset u⟩

end Sys2Proof.Machine
end

section
/-! SUPPORT. What every command word leaves of a state (10_state.md R15 to R18, R25; 60_exceptions.md R168): its frame, its
STATUS, its result registers, and no trace for the next word; and that accesses are idempotent (20_memory.md R43). -/

namespace Sys2Proof.Machine

/-! ### The frame (10_state.md R11, R12) -/

/-- Settles O12: a completion keeps the inputs and the port's lists, and CLR keeps the lists. -/
theorem commandFrame : Obligations.CommandFrame := by
  unfold Obligations.CommandFrame
  intro i s t h
  by_cases hclr : i = .clr
  · subst hclr
    obtain rfl : clearBlock s = t := Host.Outcome.next.inj h
    exact ⟨fun hne => absurd rfl hne, rfl, rfl⟩
  · obtain ⟨o, hfinish⟩ := exec_eq_finish hclr s
    obtain rfl : finish o s = t := Host.Outcome.next.inj (hfinish.symm.trans h)
    obtain ⟨-, -, -, hpending, hreplies⟩ := finish_keeps o s
    exact ⟨fun _ => finish_keeps o s, hpending, hreplies⟩

/-! ### Which words clear and which complete -/

/-- The word 0x00 is CLR (R61). -/
theorem runCommand_zero (s : State) : runCommand 0x00#8 s = .next (clearBlock s) :=
  (runCommand_of_ok (decode_encode .clr) s).trans (exec_clr s)

/-- Every other word is another command or illegal, so it completes as a success or as a failure. -/
theorem runCommand_eq_finish {w : BitVec 8} (hw : w ≠ 0x00#8) (s : State) : ∃ o, runCommand w s = .next (finish o s) := by
  cases hdecode : decode w with
  | ok i =>
    rw [runCommand_of_ok hdecode]
    refine exec_eq_finish ?_ s
    rintro rfl
    exact hw (encode_of_decode hdecode).symm
  | error e => exact ⟨_, runCommand_of_error hdecode s⟩

/-! ### STATUS (10_state.md R15, R25) -/

/-- STATUS after a completion (R137, R165). -/
theorem finish_status_mem (o : Except Failure Result) (s : State) :
    (finish o s).status ∈ [0x01#8, 0x07#8, 0x0B#8, 0x0F#8] := by
  cases o with
  | ok r =>
    rw [finish_ok, succeed_status]
    decide
  | error f =>
    rw [finish_error, fail_status]
    cases f <;> decide

/-- A completion never shows the STATUS of CLR. -/
theorem finish_status_ne_zero (o : Except Failure Result) (s : State) : (finish o s).status ≠ 0x00#8 := fun h =>
  absurd (h ▸ finish_status_mem o s) (by decide)

/-- STATUS after any word is one of five values, and 0x00 after CLR alone. -/
theorem runCommand_status {w : BitVec 8} {s t : State} (h : runCommand w s = .next t) :
    t.status ∈ [0x00#8, 0x01#8, 0x07#8, 0x0B#8, 0x0F#8] ∧ (t.status = 0x00#8 ↔ w = 0x00#8) := by
  by_cases hw : w = 0x00#8
  · subst hw
    obtain rfl : clearBlock s = t := Host.Outcome.next.inj ((runCommand_zero s).symm.trans h)
    exact ⟨List.mem_cons_self, iff_of_true rfl rfl⟩
  · obtain ⟨o, hfinish⟩ := runCommand_eq_finish hw s
    obtain rfl : finish o s = t := Host.Outcome.next.inj (hfinish.symm.trans h)
    exact ⟨List.mem_cons_of_mem _ (finish_status_mem o s), iff_of_false (finish_status_ne_zero o s) hw⟩

/-- The flags of the five values: FAIL is set exactly with ERR, and with DONE; bits 7:4 are 0. -/
theorem flags_of_status_mem {t : State} (h : t.status ∈ [0x00#8, 0x01#8, 0x07#8, 0x0B#8, 0x0F#8]) :
    (t.failed = true ↔ t.err ≠ 0#2) ∧ (t.failed = true → t.done = true) ∧ t.status.extractLsb' 4 4 = 0#4 := by
  rw [State.failed, State.err, State.done]
  revert h
  generalize t.status = status
  revert status
  decide

/-- Settles O15: which word completes decides the value of STATUS, and its value the flags. -/
theorem statusOutcomes : Obligations.StatusOutcomes := by
  unfold Obligations.StatusOutcomes
  intro w s t h
  rw [perform_command] at h
  obtain ⟨hmem, hzero⟩ := runCommand_status h
  exact ⟨hmem, hzero, flags_of_status_mem hmem⟩

/-! ### No trace (60_exceptions.md R168) -/

@[simp] theorem clearBlock_finish (o : Except Failure Result) (s : State) : clearBlock (finish o s) = clearBlock s := by
  cases o <;> rfl

/-- A command does not see what an earlier completion wrote (10_state.md R22). -/
theorem exec_finish (i : Instr) (o : Except Failure Result) (s : State) : exec i (finish o s) = exec i s := by
  cases i with
  | clr => rw [exec_clr, exec_clr, clearBlock_finish]
  | b32dec => rw [exec_b32dec, exec_b32dec, inputOperand_finish, finish_finish]
  | b32enc p => rw [exec_b32enc, exec_b32enc, inputOperand_finish, finish_finish]
  | b32proj => rw [exec_b32proj, exec_b32proj, inputOperand_finish, finish_finish]
  | b32lut p => rw [exec_b32lut, exec_b32lut, finish_finish]
  | truncfmt => rw [exec_truncfmt, exec_truncfmt, truncateDigest_finish, finish_finish]

theorem runCommand_finish (w : BitVec 8) (o : Except Failure Result) (s : State) :
    runCommand w (finish o s) = runCommand w s := by
  cases hw : decode w with
  | ok i => rw [runCommand_of_ok hw, runCommand_of_ok hw, exec_finish]
  | error e => rw [runCommand_of_error hw, runCommand_of_error hw, finish_finish]

/-- Settles O20: the first word completes, and a completion is not seen by the second. -/
theorem commandsLeaveNoTrace : Obligations.CommandsLeaveNoTrace := by
  unfold Obligations.CommandsLeaveNoTrace
  intro v v' s t hv h
  have hw : BitVec.ofNat 8 v ≠ 0x00#8 := fun hzero => hv (by simpa using congrArg BitVec.toNat hzero)
  rw [perform_writeCmd] at h
  obtain ⟨o, hfinish⟩ := runCommand_eq_finish hw s
  obtain rfl : finish o s = t := Host.Outcome.next.inj (hfinish.symm.trans h)
  rw [perform_writeCmd, perform_writeCmd, runCommand_finish]

/-! ### Idempotence (20_memory.md R43) -/

/-- A host read: its reply is the same again after it, and nothing but the replies changes. -/
theorem perform_read_again {s t : State} {e : PortEvent}
    (he : (∃ i, e = .readIbuf i ∨ e = .readObuf i) ∨ ∃ n, e = .readReg n) (h : perform e s = .next t) :
    ∃ v, t = reply v s ∧ perform e t = .next (reply v t) := by
  obtain ⟨i, rfl | rfl⟩ | ⟨n, rfl⟩ := he
  · rcases Nat.lt_or_ge i Config.ibufCap with hi | hi
    · cases (perform_readIbuf hi s).symm.trans h
      exact ⟨_, rfl, perform_readIbuf hi _⟩
    · cases (perform_readIbuf_missing hi s).symm.trans h
  · rcases Nat.lt_or_ge i Config.obufCap with hi | hi
    · cases (perform_readObuf hi s).symm.trans h
      exact ⟨_, rfl, perform_readObuf hi _⟩
    · cases (perform_readObuf_missing hi s).symm.trans h
  · cases (perform_readReg n s).symm.trans h
    exact ⟨_, rfl, perform_readReg n _⟩

/-- Writing the byte that stands first again changes nothing. -/
theorem Memory.write_cons_same {cap a : Nat} {v : Byte} {m : Memory} (h : Memory.wfFrom cap (a + 1) m = true) :
    Memory.write (Memory.cons a v m) a v = Memory.cons a v m := by
  by_cases hv : v = 0x00#8
  · subst hv
    cases m with
    | nil => rfl
    | cons c m =>
      obtain ⟨b, u⟩ := c
      have hab : a < b := ((Memory.wfFrom_cons ..).1 h).1
      simp [Memory.cons, Memory.write, hab]
  · simp [Memory.cons, Memory.write, hv]

theorem Memory.write_write_from {cap a : Nat} {v : Byte} {m : Memory} :
    ∀ {low : Nat}, Memory.wfFrom cap low m = true →
      Memory.write (Memory.write m a v) a v = Memory.write m a v := by
  induction m with
  | nil => exact fun _ => Memory.write_cons_same (cap := cap) rfl
  | cons c m ih =>
    obtain ⟨b, u⟩ := c
    intro low h
    obtain ⟨hb, hbc, hu, hm⟩ := (Memory.wfFrom_cons ..).1 h
    rw [Memory.write]
    split
    · next hab => exact Memory.write_cons_same (cap := cap) ((Memory.wfFrom_cons ..).2 ⟨hab, hbc, hu, hm⟩)
    · split
      · next hab => exact Memory.write_cons_same (hab ▸ hm)
      · next hlt hne => rw [Memory.write, if_neg hlt, if_neg hne, ih hm]

/-- Writing an element of a canonical buffer twice is writing it once. -/
theorem Memory.write_write {cap : Nat} {m : Memory} (h : Memory.wf cap m = true) (a : Nat) (v : Byte) :
    Memory.write (Memory.write m a v) a v = Memory.write m a v := Memory.write_write_from h

theorem perform_writeIbuf_again {s t : State} {i : Nat} {b : Byte} (hwf : Memory.wf Config.ibufCap s.ibuf = true)
    (h : perform (.writeIbuf i b) s = .next t) : perform (.writeIbuf i b) t = .next t := by
  rcases Nat.lt_or_ge i Config.ibufCap with hi | hi
  · cases (perform_writeIbuf hi b s).symm.trans h
    rw [perform_writeIbuf hi, storeIbuf, storeIbuf_ibuf, Memory.write_write hwf]
    rfl
  · cases (perform_writeIbuf_missing hi b s).symm.trans h

/-- A word written to CMD again leaves what it left the first time. -/
theorem runCommand_again {w : BitVec 8} {s t : State} (h : runCommand w s = .next t) : runCommand w t = .next t := by
  by_cases hw : w = 0x00#8
  · subst hw
    cases (runCommand_zero s).symm.trans h
    rw [runCommand_zero, clearBlock_clearBlock]
  · obtain ⟨o, hfinish⟩ := runCommand_eq_finish hw s
    cases hfinish.symm.trans h
    rw [runCommand_finish, hfinish]

theorem perform_writeReg_again {s t : State} {n : BitVec 8} {v : Nat} (h : perform (.writeReg n v) s = .next t) :
    perform (.writeReg n v) t = .next t := by
  by_cases hcmd : n = 0x00#8
  · subst hcmd
    exact runCommand_again h
  · by_cases hilen : n = 0x02#8
    · subst hilen
      cases (perform_writeIlen v s).symm.trans h
      rfl
    · rw [perform_writeReg_ignored hcmd hilen]

/-- Settles O41: the three kinds of access, each performed again. -/
theorem accessesAreIdempotent : Obligations.AccessesAreIdempotent := by
  unfold Obligations.AccessesAreIdempotent
  exact ⟨fun _ _ _ he => perform_read_again he, fun _ _ _ _ hinv => perform_writeIbuf_again hinv.ibufCanonical,
    fun _ _ _ _ => perform_writeReg_again⟩

end Sys2Proof.Machine
end

section
/-! SUPPORT. The invariants of an observable state (10_state.md R26): the results a command can show meet them, so every step
keeps them. -/

namespace Sys2Proof.Machine

/-! ### Results (R16 to R18) -/

/-- What R26 says of a result: OBUF holds it, the registers are in range, VALUE is reduced, and OFFSET or DBC other than 0
comes with six digits. -/
structure SoundResult (r : Result) : Prop where
  fits : r.bytes.length ≤ 128
  offset_le : r.offset.toNat ≤ 15
  dbc_le : r.dbc.toNat ≤ 0x7FFFFFFF
  value_eq : r.value.toNat = r.dbc.toNat % 1000000
  sixDigits : r.dbc ≠ 0#32 ∨ r.offset ≠ 0x00#8 → r.bytes.length = 6

theorem PlainResult.sound {r : Result} (h : PlainResult r) : SoundResult r := by
  obtain ⟨fits, hoffset, hdbc, hvalue⟩ := h
  refine ⟨fits, ?_, ?_, ?_, fun hne => ?_⟩
  · rw [hoffset]
    decide
  · rw [hdbc]
    decide
  · rw [hvalue, hdbc]
    rfl
  · exact hne.elim (absurd hdbc) (absurd hoffset)

/-- A truncation is sound by the ranges of its stages (42_truncate_format.md R122 to R126). -/
theorem truncate_sound (ibuf : Memory) : SoundResult (truncate ibuf) := by
  have length : (truncate ibuf).bytes.length = 6 := by rw [truncate_bytes, length_sixDigits]
  have hoffset := truncate_offset ibuf
  exact ⟨by omega, by omega, Nat.le_of_lt_succ (truncate_dbc_lt ibuf), truncate_value ibuf, fun _ => length⟩

theorem truncateDigest_sound {s : State} {r : Result} (h : truncateDigest s = .ok r) : SoundResult r := by
  rw [truncateDigest_eq] at h
  split at h
  · cases h
    exact truncate_sound s.ibuf
  · cases h

/-- Every command but CLR completes with a sound result or a failure. -/
theorem exec_eq_finish_sound {i : Instr} (hclr : i ≠ .clr) (s : State) :
    ∃ o, exec i s = .next (finish o s) ∧ ∀ r, o = .ok r → SoundResult r := by
  by_cases htrunc : i = .truncfmt
  · subst htrunc
    exact ⟨_, exec_truncfmt s, fun _ => truncateDigest_sound⟩
  · obtain ⟨o, hexec, hplain⟩ := exec_eq_finish_plain hclr htrunc s
    exact ⟨o, hexec, fun r hr => (hplain r hr).sound⟩

/-! ### The invariant (R26) -/

/-- A cleared block meets the invariants. -/
theorem clearBlock_observable (s : State) : ObservableInv (clearBlock s) where
  ibufCanonical := rfl
  obufCanonical := rfl
  olenFits := Nat.zero_le _
  tailZero _ _ := rfl
  statusLegal := .inl rfl
  emptyUnlessSuccess _ := ⟨rfl, rfl, rfl, rfl⟩
  offsetRange := Nat.zero_le _
  dbcRange := Nat.zero_le _
  valueReduced := rfl
  truncLength h := absurd h (by simp)

/-- A failure writes zeros beside its STATUS (60_exceptions.md R165). -/
theorem fail_observable (f : Failure) {s : State} (hwf : Memory.wf Config.ibufCap s.ibuf = true) :
    ObservableInv (fail f s) where
  ibufCanonical := hwf
  obufCanonical := rfl
  olenFits := Nat.zero_le _
  tailZero _ _ := rfl
  statusLegal := by cases f <;> simp
  emptyUnlessSuccess _ := ⟨rfl, rfl, rfl, rfl⟩
  offsetRange := Nat.zero_le _
  dbcRange := Nat.zero_le _
  valueReduced := rfl
  truncLength h := absurd h (by simp)

/-- A success shows a sound result (43_control.md R137). -/
theorem succeed_observable {r : Result} (hr : SoundResult r) {s : State}
    (hwf : Memory.wf Config.ibufCap s.ibuf = true) : ObservableInv (succeed r s) := by
  obtain ⟨fits, hoffset, hdbc, hvalue, hsix⟩ := hr
  obtain ⟨-, holen, hread, -⟩ := succeed_shows r s (by omega)
  exact
    { ibufCanonical := hwf
      obufCanonical := Memory.ofBytes_wf fits
      olenFits := by rw [holen]; exact fits
      tailZero := fun i hi => by rw [hread, List.getD_eq_default _ _ (by omega)]
      statusLegal := .inr (.inl rfl)
      emptyUnlessSuccess := fun h => absurd h (by rw [State.failed, State.done, succeed_status]; decide)
      offsetRange := hoffset
      dbcRange := hdbc
      valueReduced := hvalue
      truncLength := fun h => ⟨BitVec.eq_of_toNat_eq (holen.trans (hsix h)), rfl⟩ }

theorem finish_observable {o : Except Failure Result} (ho : ∀ r, o = .ok r → SoundResult r) {s : State}
    (hwf : Memory.wf Config.ibufCap s.ibuf = true) : ObservableInv (finish o s) := by
  cases o with
  | ok r => exact succeed_observable (ho r rfl) hwf
  | error f => exact fail_observable f hwf

theorem exec_observable {i : Instr} {s t : State} (hwf : Memory.wf Config.ibufCap s.ibuf = true)
    (h : exec i s = .next t) : ObservableInv t := by
  by_cases hclr : i = .clr
  · subst hclr
    cases h
    exact clearBlock_observable s
  · obtain ⟨o, hfinish, hsound⟩ := exec_eq_finish_sound hclr s
    cases hfinish.symm.trans h
    exact finish_observable hsound hwf

theorem runCommand_observable {w : BitVec 8} {s t : State} (hwf : Memory.wf Config.ibufCap s.ibuf = true)
    (h : runCommand w s = .next t) : ObservableInv t := by
  cases hw : decode w with
  | ok i => exact exec_observable hwf (runCommand_of_ok hw s ▸ h)
  | error e =>
    cases (runCommand_of_error hw s).symm.trans h
    exact fail_observable _ hwf

/-! ### Port events -/

/-- The invariants speak of neither ILEN nor the port's lists, and of IBUF only that it is canonical. -/
theorem ObservableInv.congr {s t : State} (h : ObservableInv s) (hwf : Memory.wf Config.ibufCap t.ibuf = true)
    (hout : t = { s with ibuf := t.ibuf, ilen := t.ilen, pending := t.pending, replies := t.replies }) :
    ObservableInv t := by
  rw [hout]
  exact { h with ibufCanonical := hwf }

theorem perform_writeReg_observable {n : BitVec 8} {v : Nat} {s t : State} (hinv : ObservableInv s)
    (h : perform (.writeReg n v) s = .next t) : ObservableInv t := by
  by_cases hcmd : n = 0x00#8
  · subst hcmd
    exact runCommand_observable hinv.ibufCanonical h
  · by_cases hilen : n = 0x02#8
    · subst hilen
      cases (perform_writeIlen v s).symm.trans h
      exact hinv.congr hinv.ibufCanonical rfl
    · cases (perform_writeReg_ignored hcmd hilen v s).symm.trans h
      exact hinv

theorem perform_observable {e : PortEvent} {s t : State} (hinv : ObservableInv s) (h : perform e s = .next t) :
    ObservableInv t := by
  have replied (v : Word32) : ObservableInv (reply v s) := hinv.congr hinv.ibufCanonical rfl
  cases e with
  | writeIbuf i b =>
    rcases Nat.lt_or_ge i Config.ibufCap with hi | hi
    · cases (perform_writeIbuf hi b s).symm.trans h
      exact hinv.congr (Memory.write_wf hinv.ibufCanonical hi) rfl
    · cases (perform_writeIbuf_missing hi b s).symm.trans h
  | readIbuf i =>
    obtain ⟨v, rfl, -⟩ := perform_read_again (.inl ⟨i, .inl rfl⟩) h
    exact replied v
  | writeObuf i b =>
    rcases Nat.lt_or_ge i Config.obufCap with hi | hi
    · cases (perform_writeObuf_ignored hi b s).symm.trans h
      exact hinv
    · cases (perform_writeObuf_missing hi b s).symm.trans h
  | readObuf i =>
    obtain ⟨v, rfl, -⟩ := perform_read_again (.inl ⟨i, .inr rfl⟩) h
    exact replied v
  | writeReg n v => exact perform_writeReg_observable hinv h
  | readReg n =>
    obtain ⟨v, rfl, -⟩ := perform_read_again (.inr ⟨n, rfl⟩) h
    exact replied v
  | reset =>
    cases (perform_reset s).symm.trans h
    exact clearBlock_observable s

/-- Settles O3: every event keeps the invariants, and taking it from the list touches none of them. -/
theorem stepKeepsInvariant : Obligations.StepKeepsInvariant := by
  unfold Obligations.StepKeepsInvariant
  intro s t hinv h
  cases hpending : s.pending with
  | nil =>
    cases (step_of_idle hpending).symm.trans h
    exact hinv
  | cons e rest =>
    rw [step_of_pending hpending] at h
    have taken : ObservableInv (setPending rest s) := hinv.congr hinv.ibufCanonical rfl
    exact perform_observable taken h

/-- Settles O2: the reset state is a cleared block. -/
theorem resetMeetsInvariant : Obligations.ResetMeetsInvariant := by
  unfold Obligations.ResetMeetsInvariant
  exact clearBlock_observable State.reset

/-! ### The result registers of a command (R16 to R18) -/

/-- The unused bits of registers in the ranges of R16 to R18. -/
theorem unused_bits_zero {offset : BitVec 8} {dbc value : Word32} (hoffset : offset.toNat ≤ 15)
    (hdbc : dbc.toNat ≤ 0x7FFFFFFF) (hvalue : value.toNat < 1000000) :
    offset.extractLsb' 4 4 = 0#4 ∧ dbc.getLsbD 31 = false ∧ value.extractLsb' 20 12 = 0#12 := by
  refine ⟨BitVec.eq_of_toNat_eq ?_, ?_, BitVec.eq_of_toNat_eq ?_⟩
  · rw [BitVec.extractLsb'_toNat, Nat.shiftRight_eq_div_pow]
    show _ = 0
    omega
  · exact Nat.testBit_lt_two_pow (Nat.lt_succ_of_le hdbc)
  · rw [BitVec.extractLsb'_toNat, Nat.shiftRight_eq_div_pow]
    show _ = 0
    omega

/-- The registers after any command are in the ranges of a sound result. -/
theorem exec_registers_range {i : Instr} {s t : State} (h : exec i s = .next t) :
    t.offset.toNat ≤ 15 ∧ t.dbc.toNat ≤ 0x7FFFFFFF ∧ t.value.toNat < 1000000 := by
  by_cases hclr : i = .clr
  · subst hclr
    cases h
    exact ⟨Nat.zero_le _, Nat.zero_le _, Nat.zero_lt_succ _⟩
  · obtain ⟨o, hfinish, hsound⟩ := exec_eq_finish_sound hclr s
    cases hfinish.symm.trans h
    cases o with
    | ok r =>
      obtain ⟨-, hoffset, hdbc, hvalue, -⟩ := hsound r rfl
      exact ⟨hoffset, hdbc, hvalue ▸ Nat.mod_lt _ (by decide)⟩
    | error f => exact ⟨Nat.zero_le _, Nat.zero_le _, Nat.zero_lt_succ _⟩

/-- Only TRUNCFMT on a digest of 20 bytes writes a result register with anything but 0. -/
theorem exec_registers_zero {i : Instr} {s t : State} (h : exec i s = .next t)
    (hother : ¬ (i = .truncfmt ∧ s.ilen.toNat = 20)) : t.offset = 0x00#8 ∧ t.dbc = 0#32 ∧ t.value = 0#32 := by
  by_cases hclr : i = .clr
  · subst hclr
    cases h
    exact ⟨rfl, rfl, rfl⟩
  · by_cases htrunc : i = .truncfmt
    · subst htrunc
      obtain ⟨u, hexec, ⟨-, -, -, hregisters⟩, -⟩ := truncfmt_fails_of_length_ne fun hlen => hother ⟨rfl, hlen⟩
      cases hexec.symm.trans h
      exact hregisters
    · obtain ⟨o, hfinish, hplain⟩ := exec_eq_finish_plain hclr htrunc s
      cases hfinish.symm.trans h
      cases o with
      | ok r => exact (hplain r rfl).registers
      | error f => exact ⟨rfl, rfl, rfl⟩

/-- Settles O21: registers other than 0 are a truncation's, and the ranges leave the unused bits 0. -/
theorem resultRegistersOfTruncfmtOnly : Obligations.ResultRegistersOfTruncfmtOnly := by
  unfold Obligations.ResultRegistersOfTruncfmtOnly
  intro i s t h
  obtain ⟨hoffset, hdbc, hvalue⟩ := exec_registers_range h
  refine ⟨fun hne => ?_, unused_bits_zero hoffset hdbc hvalue⟩
  by_cases htrunc : i = .truncfmt ∧ s.ilen.toNat = 20
  · obtain ⟨rfl, hlen⟩ := htrunc
    cases (exec_truncfmt_of_length_eq hlen).symm.trans h
    exact ⟨rfl, hlen, rfl⟩
  · obtain ⟨hoffset, hdbc, hvalue⟩ := exec_registers_zero h htrunc
    simp [hoffset, hdbc, hvalue] at hne

end Sys2Proof.Machine
end

section
/-! SUPPORT. The Base32 commands together (40_base32_decode.md R85, R89, R92; 41_base32_encode.md R103, R104, R111, R112): what
B32DEC accepts, what B32ENC emits, and decoding what B32ENC or B32PROJ gave. -/

namespace Sys2Proof.Machine

/-! ### What B32DEC accepts (R85, R89) -/

/-- Settles O22: the law of symbols and a pad run. -/
theorem b32decDecodesSymbols : Obligations.B32decDecodesSymbols := by
  unfold Obligations.B32decDecodesSymbols
  exact fun s groups p hne h => b32dec_completes_of_symbols hne h

/-- A text that decodes is one or more symbols and a pad run, and its result is the closed form of those symbols. -/
theorem symbols_of_decodeText_ok {text : List Byte} {r : Result} (h : decodeText text = .ok r) :
    ∃ (groups : List (BitVec 5)) (p : Nat), groups ≠ [] ∧ text = groups.map alpha ++ List.replicate p padChar ∧
      r = { bytes := decodedForm groups } := by
  have split := (dataSymbols_split text).1
  simp only [decodeText] at h
  split at h
  · cases h
  · split at h
    · cases h
    · next hsome =>
      split at h
      · next groups hgroups =>
        have hdata := eq_map_alpha_of_symbolValues hgroups
        refine ⟨groups, padRun text, ?_, hdata ▸ split, ?_⟩
        · rintro rfl
          exact hsome (by rw [hdata]; rfl)
        · rw [← groupsToBytes_eq]
          exact (Except.ok.inj h).symm
      · cases h

/-- B32DEC succeeds on symbols and a pad run only. -/
theorem symbols_of_b32dec_success {s t : State} (h : exec .b32dec s = .next t) (hstatus : t.status = 0x01#8) :
    ∃ (groups : List (BitVec 5)) (p : Nat), groups ≠ [] ∧
      HoldsInput s (groups.map alpha ++ List.replicate p padChar) ∧ t = succeed { bytes := decodedForm groups } s := by
  rcases Nat.lt_or_ge Config.ibufCap s.ilen.toNat with hlong | hfit
  · obtain ⟨u, hexec, ⟨hfail, -⟩, -⟩ := b32dec_fails_of_too_long hlong
    cases hexec.symm.trans h
    exact absurd (hfail.symm.trans hstatus) (by decide)
  · cases (exec_b32dec_of_fits hfit).symm.trans h
    cases hdecode : decodeText (inputString s) with
    | ok r =>
      obtain ⟨groups, p, hne, htext, rfl⟩ := symbols_of_decodeText_ok hdecode
      exact ⟨groups, p, hne, htext ▸ holdsInput_inputString hfit, rfl⟩
    | error f =>
      rw [hdecode, finish_error, fail_status] at hstatus
      exact absurd hstatus.symm (successStatus_ne_failureStatus f)

/-- Less than a byte is one symbol. -/
theorem eq_singleton_of_decodedForm_eq_nil {groups : List (BitVec 5)} (hne : groups ≠ []) (h : decodedForm groups = []) :
    ∃ v, groups = [v] := by
  have hlen := congrArg List.length h
  rw [length_decodedForm, List.length_nil] at hlen
  have hpos := List.length_pos_of_ne_nil hne
  exact List.length_eq_one_iff.1 (by omega)

/-- Settles O27: an accepted text gives (5m) div 8 bytes, none exactly for m = 1. -/
theorem b32decEmptyResultIsOneSymbol : Obligations.B32decEmptyResultIsOneSymbol := by
  unfold Obligations.B32decEmptyResultIsOneSymbol
  intro s t h
  constructor
  · rintro ⟨hstatus, holen⟩
    obtain ⟨groups, p, hne, hholds, rfl⟩ := symbols_of_b32dec_success h hstatus
    have hempty : decodedForm groups = [] := by
      have hcap : (groups.map alpha ++ List.replicate p padChar).length ≤ 128 := hholds.2.1
      rw [List.length_append, List.length_map] at hcap
      have hlen := congrArg BitVec.toNat holen
      rw [succeed_olen, BitVec.toNat_ofNat, length_decodedForm, BitVec.toNat_ofNat] at hlen
      rw [← List.length_eq_zero_iff, length_decodedForm]
      omega
    obtain ⟨v, rfl⟩ := eq_singleton_of_decodedForm_eq_nil hne hempty
    exact ⟨v, p, hholds⟩
  · rintro ⟨v, p, hholds⟩
    have hcompletes := b32dec_completes_of_symbols (groups := [v]) (List.cons_ne_nil _ _) hholds
    rw [decodedForm_singleton] at hcompletes
    obtain ⟨u, hexec, ⟨hstatus, holen, -⟩, -⟩ := hcompletes
    cases hexec.symm.trans h
    exact ⟨hstatus, BitVec.eq_of_toNat_eq holen⟩

/-! ### What B32ENC emits (R103, R104) -/

/-- Settles O28: the law of B32ENC without padding. -/
theorem b32encUnpadded : Obligations.B32encUnpadded := by
  unfold Obligations.B32encUnpadded
  exact fun s bytes h hlen => b32enc_completes false h hlen

/-- The padded text is a whole number of blocks. -/
theorem length_paddedText_mod (bytes : List Byte) : (padToBlock (encodedForm bytes)).length % 8 = 0 := by
  have hlen : (padToBlock (encodedForm bytes)).length = encodedLength true bytes.length := length_encodedText true bytes
  rw [hlen, encodedLength, if_pos rfl, Nat.mul_mod_right]

/-- Settles O29: the law of B32ENC with padding, and the padding as R103 counts it. -/
theorem b32encPadded : Obligations.B32encPadded := by
  unfold Obligations.B32encPadded
  intro s bytes h hlen
  have hpadded := padToBlock_encodedForm bytes
  exact ⟨hpadded ▸ b32enc_completes true h hlen, hpadded ▸ length_paddedText_mod bytes⟩

/-! ### The result string as the next input -/

/-- The host reads the result string that a success shows (10_state.md R13). -/
theorem outputString_of_shows {t : State} {bytes : List Byte} {offset : BitVec 8} {dbc value : Word32}
    (h : ShowsSuccess t bytes offset dbc value) : outputString t = bytes := by
  obtain ⟨-, holen, hread, -⟩ := h
  rw [outputString, holen]
  apply List.ext_getElem (Memory.length_bytesFrom ..)
  intro i hi hi'
  rw [Memory.getElem_bytesFrom, Nat.zero_add, hread, List.getD_eq_getElem _ _ hi']

/-! ### Decoding a projection (R111, R112) -/

/-- A projection is the text of the low 5 bits of its bytes (R112). -/
theorem map_projectByte (bytes : List Byte) :
    bytes.map projectByte = (bytes.map fun b => b.setWidth 5).map alpha := by
  rw [List.map_map]
  exact List.map_congr_left fun b _ => projectByte_eq_alpha b

/-- Settles O33: a projection is a text of symbols, which decode to the low bits. -/
theorem projectionDecodesToLowBits : Obligations.ProjectionDecodesToLowBits := by
  unfold Obligations.ProjectionDecodesToLowBits
  intro s bytes hne h
  obtain ⟨t, hexec, hshows, -⟩ := b32proj_completes h
  have ⟨hstatus, holen, hread, _⟩ := hshows
  refine ⟨t, hexec, hstatus, ?_, fun a ha => ?_, fun u hu => ?_⟩
  · exact BitVec.eq_of_toNat_eq (by rw [holen, List.length_map, h.1])
  · rw [hread, List.getD_eq_getElem _ _ (by rwa [List.length_map]), List.getElem_map, projectByte_eq_alpha]
    exact inAlphabet_alpha _
  · rw [outputString_of_shows hshows, map_projectByte] at hu
    exact b32dec_completes_of_unpadded (by simpa using hne) hu

/-! ### Decoding an encoding (R92) -/

/-- The low `n` groups of a number, most significant first. -/
def bigEndianGroups (n value : Nat) : List (BitVec 5) :=
  (List.range n).map fun j => BitVec.ofNat 5 (value >>> (5 * (n - 1 - j)))

@[simp] theorem length_bigEndianGroups (n value : Nat) : (bigEndianGroups n value).length = n := by
  simp [bigEndianGroups]

/-- The last group is the low one, and those before it are the groups of the number without it. -/
theorem bigEndianGroups_succ (n value : Nat) :
    bigEndianGroups (n + 1) value = bigEndianGroups n (value >>> 5) ++ [BitVec.ofNat 5 value] := by
  have higher : ∀ j, j < n → value >>> (5 * (n + 1 - 1 - j)) = (value >>> 5) >>> (5 * (n - 1 - j)) := by
    intro j hj
    rw [← Nat.shiftRight_add, show 5 * (n + 1 - 1 - j) = 5 + 5 * (n - 1 - j) by omega]
  rw [bigEndianGroups, List.range_succ, List.map_append]
  congr 1
  · exact List.map_congr_left fun j hj => by rw [higher j (List.mem_range.1 hj)]
  · simp

/-- Groups of a number that has no more of them give the number back. -/
theorem groupsNumber_bigEndianGroups {n value : Nat} (h : value < 2 ^ (5 * n)) :
    groupsNumber (bigEndianGroups n value) = value := by
  induction n generalizing value with
  | zero =>
    obtain rfl : value = 0 := by simpa using h
    rfl
  | succ n ih =>
    have hhigh : value >>> 5 < 2 ^ (5 * n) := by
      rw [Nat.shiftRight_eq_div_pow]
      exact Nat.div_lt_of_lt_mul (by rwa [← Nat.pow_add, Nat.add_comm])
    rw [bigEndianGroups_succ, groupsNumber_append, ih hhigh, BitVec.toNat_ofNat, Nat.shiftRight_eq_div_pow]
    exact Nat.div_add_mod' value 32

/-- The bytes of the number of a byte string are that string. -/
theorem bigEndianBytes_bytesNumber (bytes : List Byte) : bigEndianBytes bytes.length (bytesNumber bytes) = bytes := by
  induction bytes using List.reverseRecOn with
  | nil => rfl
  | append_singleton bytes b ih =>
    have high : bytesNumber (bytes ++ [b]) >>> 8 = bytesNumber bytes := by
      rw [bytesNumber_append]
      exact mul_pow_add_shiftRight (k := 8) 0 b.isLt
    have low : BitVec.ofNat 8 (bytesNumber (bytes ++ [b])) = b := by
      apply BitVec.eq_of_toNat_eq
      rw [bytesNumber_append, BitVec.toNat_ofNat]
      omega
    rw [List.length_append, List.length_singleton, bigEndianBytes_succ, high, low, ih]

/-- The groups of the bit string of R104: the bytes, completed by zero bits. -/
def encodedGroups (bytes : List Byte) : List (BitVec 5) :=
  bigEndianGroups (symbolCount bytes.length) (bytesNumber bytes <<< (5 * symbolCount bytes.length - 8 * bytes.length))

theorem encodedForm_eq_map_alpha (bytes : List Byte) : encodedForm bytes = (encodedGroups bytes).map alpha := by
  rw [encodedGroups, bigEndianGroups, List.map_map]
  rfl

theorem encodedGroups_ne_nil {bytes : List Byte} (h : bytes ≠ []) : encodedGroups bytes ≠ [] := by
  have hpos := List.length_pos_of_ne_nil h
  apply List.ne_nil_of_length_pos
  rw [encodedGroups, length_bigEndianGroups, symbolCount]
  omega

/-- The number of these groups is V' of R104. -/
theorem groupsNumber_encodedGroups (bytes : List Byte) :
    groupsNumber (encodedGroups bytes) =
      bytesNumber bytes <<< (5 * symbolCount bytes.length - 8 * bytes.length) := by
  refine groupsNumber_bigEndianGroups ?_
  have width : 5 * symbolCount bytes.length =
      8 * bytes.length + (5 * symbolCount bytes.length - 8 * bytes.length) := by
    rw [symbolCount]
    omega
  have hlt : bytesNumber bytes < 2 ^ (8 * bytes.length) := by
    rw [Nat.pow_mul]
    exact bytesNumber_lt bytes
  rw [Nat.shiftLeft_eq]
  conv_rhs => rw [width, Nat.pow_add]
  exact Nat.mul_lt_mul_of_pos_right hlt (Nat.two_pow_pos _)

/-- Their whole bytes are the bytes they came from: the fill bits are fewer than 8 and shift out (R92). -/
theorem decodedForm_encodedGroups (bytes : List Byte) : decodedForm (encodedGroups bytes) = bytes := by
  have length : (encodedGroups bytes).length = symbolCount bytes.length := length_bigEndianGroups ..
  have whole : 5 * symbolCount bytes.length / 8 = bytes.length := by
    rw [symbolCount]
    omega
  conv_rhs => rw [← bigEndianBytes_bytesNumber bytes]
  rw [decodedForm, length, whole, groupsNumber_encodedGroups, bigEndianBytes]
  refine List.map_congr_left fun j hj => ?_
  have hj := List.mem_range.1 hj
  have above : 5 * symbolCount bytes.length - 8 * (j + 1) =
      (5 * symbolCount bytes.length - 8 * bytes.length) + 8 * (bytes.length - 1 - j) := by omega
  rw [above, shiftLeft_shiftRight_add]

/-- B32ENC emits the groups' symbols and a pad run, which may be empty. -/
theorem encodedText_eq_symbols (p : Bool) (bytes : List Byte) :
    ∃ q, (if p then padToBlock (encodedForm bytes) else encodedForm bytes) =
      (encodedGroups bytes).map alpha ++ List.replicate q padChar := by
  rw [← encodedForm_eq_map_alpha]
  cases p with
  | false => exact ⟨0, (List.append_nil _).symm⟩
  | true => exact ⟨padCount bytes.length, padToBlock_encodedForm bytes⟩

/-- Settles O36: the text is symbols and a pad run, whose closed form is the bytes. -/
theorem encodeDecodeRoundTrip : Obligations.EncodeDecodeRoundTrip := by
  unfold Obligations.EncodeDecodeRoundTrip
  intro s p bytes hne hlen h
  obtain ⟨t, hexec, hshows, -⟩ := b32enc_completes p h hlen
  obtain ⟨q, htext⟩ := encodedText_eq_symbols p bytes
  refine ⟨t, hexec, hshows.1, fun u hu => ?_⟩
  rw [outputString_of_shows hshows, htext] at hu
  have hcompletes := b32dec_completes_of_symbols (encodedGroups_ne_nil hne) hu
  rwa [decodedForm_encodedGroups] at hcompletes

end Sys2Proof.Machine
end

section
/-! SUPPORT. What TRUNCFMT reads of the digest (42_truncate_format.md R127): the low nibble of the last byte and the window. -/

namespace Sys2Proof.Machine

/-- The offset is a function of the low nibble (R122). -/
theorem truncOffset_congr {last₁ last₂ : Byte} (h : last₁.toNat % 16 = last₂.toNat % 16) :
    truncOffset last₁ = truncOffset last₂ :=
  BitVec.eq_of_toNat_eq (by rw [truncOffset_toNat, truncOffset_toNat, h])

/-- Truncation is a function of the low nibble and the four bytes of the window. -/
theorem truncate_congr_window {m₁ m₂ : Memory}
    (hnibble : (Memory.read m₁ 19).toNat % 16 = (Memory.read m₂ 19).toNat % 16)
    (hwindow : ∀ j, j < 4 → Memory.read m₁ ((Memory.read m₁ 19).toNat % 16 + j) =
      Memory.read m₂ ((Memory.read m₁ 19).toNat % 16 + j)) : truncate m₁ = truncate m₂ := by
  have hoffset : truncOffset (Memory.read m₁ (Config.digestLen - 1)) =
      truncOffset (Memory.read m₂ (Config.digestLen - 1)) := truncOffset_congr hnibble
  have window : truncWindow m₁ (truncOffset (Memory.read m₁ (Config.digestLen - 1))) =
      truncWindow m₂ (truncOffset (Memory.read m₁ (Config.digestLen - 1))) := by
    rw [truncWindow, truncWindow, truncOffset_toNat]
    congr 1
    exacts [hwindow 0 (by decide), hwindow 1 (by decide), hwindow 2 (by decide), hwindow 3 (by decide)]
  rw [truncate, truncate, window, hoffset]

/-- Settles O40: both digests have the same truncation, and a success writes every output from it. -/
theorem truncfmtReadsWindowOnly : Obligations.TruncfmtReadsWindowOnly := by
  unfold Obligations.TruncfmtReadsWindowOnly
  intro s₁ s₂ hlen₁ hlen₂ hnibble hwindow
  have hexec₂ := exec_truncfmt_of_length_eq hlen₂
  rw [← truncate_congr_window hnibble hwindow] at hexec₂
  exact ⟨_, _, exec_truncfmt_of_length_eq hlen₁, hexec₂, rfl, rfl, rfl, rfl, rfl, rfl⟩

end Sys2Proof.Machine
end

section
/-! SUPPORT. Host transactions (30_encoding.md R70; 45_environment_totp_engine.md R145, R147): what the command of a loaded
string sees, and what the environment gets from it. -/

namespace Sys2Proof.Machine

/-! ### A loaded string (20_memory.md R53) -/

/-- What LOAD leaves: the string as input, a canonical IBUF, and everything else as it was. -/
structure Loaded (bytes : List Byte) (s u : State) : Prop where
  served : serve (loadScript bytes) s = .next u
  holds : HoldsInput u bytes
  canonical : Memory.wf Config.ibufCap u.ibuf = true
  frame : u = { s with ibuf := u.ibuf, ilen := u.ilen }
  above : ∀ a, bytes.length ≤ a → Memory.read u.ibuf a = Memory.read s.ibuf a

theorem exists_loaded {bytes : List Byte} {s : State} (hwf : Memory.wf Config.ibufCap s.ibuf = true)
    (hlen : bytes.length ≤ 128) : ∃ u, Loaded bytes s u := by
  obtain ⟨m, hserve, hcanonical, hread⟩ := serve_loadScript bytes hwf
  have within : min bytes.length Config.ibufCap = bytes.length := Nat.min_eq_left hlen
  rw [within] at hread
  refine ⟨_, hserve, ⟨?_, hlen, fun i hi => ?_⟩, hcanonical, rfl, fun a ha => ?_⟩
  · show (BitVec.ofNat 8 (min bytes.length 255)).toNat = bytes.length
    rw [BitVec.toNat_ofNat]
    omega
  · exact (hread i).trans (if_pos hi)
  · exact (hread a).trans (if_neg (Nat.not_lt_of_le ha))

/-- Settles O47: the law of LOAD for a string that IBUF holds. -/
theorem loadIsSeen : Obligations.LoadIsSeen := by
  unfold Obligations.LoadIsSeen
  intro s bytes hinv hlen
  obtain ⟨t, h⟩ := exists_loaded hinv.ibufCanonical hlen
  exact ⟨t, h.served, h.holds, h.frame, h.above⟩

/-! ### A command on it -/

theorem serve_singleton (e : PortEvent) (s : State) : serve [e] s = perform e s := by
  rw [serve]
  cases perform e s <;> rfl

/-- The word that the host writes for a command runs that command (43_control.md R136). -/
theorem serve_commandScript (i : Instr) (s : State) : serve (commandScript i) s = exec i s := by
  rw [commandScript, serve_singleton, perform_command, runCommand_of_ok (decode_encode i)]

/-- A script followed by a command ends as the command does. -/
theorem serve_then_command {events : List PortEvent} {s u : State} (h : serve events s = .next u) (i : Instr) :
    serve (events ++ commandScript i) s = exec i u := by
  rw [serve_append h, serve_commandScript]

/-- The block after a transaction: cleared, the port's own lists apart. -/
def cleared (s : State) : State := { State.reset with pending := s.pending, replies := s.replies }

/-- A command on a loaded string leaves the port's lists as they were before LOAD, and a canonical IBUF. -/
theorem Loaded.cleared_and_canonical {bytes : List Byte} {s u t : State} (h : Loaded bytes s u) (hkept : InputKept u t) :
    cleared t = cleared s ∧ Memory.wf Config.ibufCap t.ibuf = true := by
  obtain ⟨-, hibuf, -, hpending, hreplies⟩ := hkept
  have pending : u.pending = s.pending := by rw [h.frame]
  have replies : u.replies = s.replies := by rw [h.frame]
  rw [cleared, cleared, hpending, hreplies, pending, replies, hibuf]
  exact ⟨rfl, h.canonical⟩

/-- A transaction gives what the host reads after the command, and leaves the block cleared. -/
theorem transact_of_exec {α : Type} {bytes : List Byte} {i : Instr} {s u t : State} (h : Loaded bytes s u)
    (hexec : exec i u = .next t) (hkept : InputKept u t) (read : State → α) :
    transact bytes i read s = (.ok (read t), cleared s) := by
  have run : serve (loadScript bytes ++ commandScript i) s = .next t := (serve_then_command h.served i).trans hexec
  have clear : serve (commandScript .clr) t = .next (cleared t) := (serve_commandScript .clr t).trans (exec_clr t)
  rw [transact, run]
  simp only [clear]
  rw [(h.cleared_and_canonical hkept).1]

/-- The host reads the first `n` bytes of a result of that length. -/
theorem bytesFrom_of_shows {t : State} {bytes : List Byte} {offset : BitVec 8} {dbc value : Word32}
    (h : ShowsSuccess t bytes offset dbc value) : Memory.bytesFrom t.obuf 0 bytes.length = bytes := by
  have houtput := outputString_of_shows h
  rwa [outputString, h.2.1] at houtput

/-! ### createSecret (R147) -/

/-- A draw in the range is projected and the block cleared. -/
theorem createSecret_projects {length : Nat} (low : 16 ≤ length) (high : length ≤ 128) (draw : Nat → Byte) {s : State}
    (hwf : Memory.wf Config.ibufCap s.ibuf = true) :
    createSecret length (some draw) s =
      (.ok ((List.range length).map fun i => alpha ((draw i).setWidth 5)), cleared s) := by
  obtain ⟨u, hloaded⟩ := exists_loaded (bytes := (List.range length).map draw) hwf (by simpa using high)
  obtain ⟨t, hexec, hshows, hkept⟩ := b32proj_completes hloaded.holds
  have text : ((List.range length).map draw).map projectByte =
      (List.range length).map fun i => alpha ((draw i).setWidth 5) := by
    rw [List.map_map]
    exact List.map_congr_left fun i _ => projectByte_eq_alpha (draw i)
  have hread := bytesFrom_of_shows hshows
  rw [text, List.length_map, List.length_range] at hread
  rw [createSecret_of_draw low high, transact_of_exec hloaded hexec hkept, hread]

/-- Settles O56: the three ways createSecret ends; the default length is in the range. -/
theorem createSecretProjects : Obligations.CreateSecretProjects := by
  unfold Obligations.CreateSecretProjects
  intro s hinv
  have projects {length : Nat} (low : 16 ≤ length) (high : length ≤ 128) (draw : Nat → Byte) :=
    createSecret_projects low high draw hinv.ibufCanonical
  have noSource {length : Nat} (low : 16 ≤ length) (high : length ≤ 128) :
      createSecret length none s = (.error .insecureRandomSource, s) :=
    createSecret_of_no_source (by omega) (by omega) s
  exact ⟨fun length low high => ⟨projects low high, noSource low high⟩,
    fun length h draw => createSecret_of_outside h draw s, projects (by decide) (by decide),
    noSource (by decide) (by decide)⟩

/-! ### getCode of a decodable secret (R145) -/

/-- The code of R145: the six digits of the truncation of HMAC_SHA1 of the decoded key and the counter. -/
def codeOf (groups : List (BitVec 5)) (step : Nat) : List Byte :=
  sixDigits (digestCode (fun i => (Config.hmacSha1 (decodedForm groups) (be64 step)).toList.getD i 0x00#8) % 1000000)

@[simp] theorem length_codeOf (groups : List (BitVec 5)) (step : Nat) : (codeOf groups step).length = 6 :=
  length_sixDigits _

/-- The truncation reads the 20 bytes of the digest only. -/
theorem digestCode_congr {f g : Nat → Byte} (h : ∀ i, i < 20 → f i = g i) : digestCode f = digestCode g := by
  simp only [digestCode]
  rw [h 19 (by decide), h _ (by omega), h _ (by omega), h _ (by omega), h _ (by omega)]

/-- TRUNCFMT of a digest that IBUF holds shows the six digits of its truncation (42_truncate_format.md R120). -/
theorem truncfmt_of_holds {s : State} {digest : List Byte} (hlen : digest.length = 20) (h : HoldsInput s digest) :
    ∃ t, exec .truncfmt s = .next t ∧ InputKept s t ∧
      Memory.bytesFrom t.obuf 0 6 = sixDigits (digestCode (fun i => digest.getD i 0x00#8) % 1000000) := by
  obtain ⟨hilen, -, hread⟩ := h
  obtain ⟨t, hexec, hkept, hshows, -, hdbc, hvalue, -⟩ := truncfmtStages s (hilen.trans hlen)
  have same : digestCode (Memory.read s.ibuf) = digestCode (fun i => digest.getD i 0x00#8) :=
    digestCode_congr fun i hi => hread i (by omega)
  have hbytes := bytesFrom_of_shows hshows
  rw [length_sixDigits] at hbytes
  exact ⟨t, hexec, hkept, by rw [hbytes, hvalue, hdbc, same]⟩

theorem codeOfKey_eq {groups : List (BitVec 5)} {step : Nat} (hstep : step < 2 ^ 64) {s : State}
    (hwf : Memory.wf Config.ibufCap s.ibuf = true) :
    codeOfKey (decodedForm groups) step s = (.ok (codeOf groups step), cleared s) := by
  have hlen : (Config.hmacSha1 (decodedForm groups) (be64 step)).toList.length = 20 := Vector.length_toList
  obtain ⟨u, hloaded⟩ := exists_loaded hwf (hlen.trans_le (by decide))
  obtain ⟨t, hexec, hkept, hcode⟩ := truncfmt_of_holds hlen hloaded.holds
  rw [codeOfKey, if_pos (by omega), Int.toNat_natCast, transact_of_exec hloaded hexec hkept]
  exact congrArg (fun code => (Except.ok code, cleared s)) hcode

/-- B32DEC of a loaded secret decides what getCode does next (R145, R146). -/
theorem getCode_of_exec {secret : List Byte} {s u t : State} (hserve : serve (loadScript secret) s = .next u)
    (hexec : exec .b32dec u = .next t) (step : Int) :
    getCode secret step s = if t.failed then (.error .invalidSecret, t) else codeOfKey (outputString t) step t := by
  rw [getCode, (serve_then_command hserve .b32dec).trans hexec]

/-- getCode of symbols and a pad run that IBUF holds: the code, in any state, and the block is left cleared. -/
theorem getCode_of_symbols {groups : List (BitVec 5)} {p step : Nat} (hne : groups ≠ [])
    (hlen : groups.length + p ≤ 128) (hstep : step < 2 ^ 64) {s : State}
    (hwf : Memory.wf Config.ibufCap s.ibuf = true) :
    getCode (groups.map alpha ++ List.replicate p padChar) step s = (.ok (codeOf groups step), cleared s) := by
  have hfit : (groups.map alpha ++ List.replicate p padChar).length ≤ 128 := by simpa using hlen
  obtain ⟨u, hloaded⟩ := exists_loaded hwf hfit
  obtain ⟨t, hexec, hshows, hkept⟩ := b32dec_completes_of_symbols hne hloaded.holds
  obtain ⟨hcleared, hcanonical⟩ := hloaded.cleared_and_canonical hkept
  have success : t.failed = false := by
    rw [State.failed, hshows.1]
    decide
  rw [getCode_of_exec hloaded.served hexec, success, if_neg Bool.false_ne_true, outputString_of_shows hshows,
    codeOfKey_eq hstep hcanonical, hcleared]

/-- Settles O51: the law of getCode. -/
theorem getCodeOfDecodableSecret : Obligations.GetCodeOfDecodableSecret := by
  unfold Obligations.GetCodeOfDecodableSecret
  exact fun s groups p step hinv hne hlen hstep => getCode_of_symbols hne hlen hstep hinv.ibufCanonical

/-! ### getCode of an undecodable secret (R146) -/

/-- A secret that does not decode: longer than IBUF (log 13), without a data symbol, or with a foreign data byte. -/
def Undecodable (secret : List Byte) : Prop :=
  128 < secret.length ∨ (∀ c ∈ secret, c = 0x3D#8) ∨
    ∃ (before after : List Byte) (c : Byte), secret = before ++ c :: after ∧ ¬ InAlphabet c ∧
      (c ≠ 0x3D#8 ∨ ∃ d ∈ after, d ≠ 0x3D#8)

/-- A byte that is not padding, or is followed by one that is not, is a data symbol (40_base32_decode.md R81). -/
theorem mem_dataSymbols_of_split {before after : List Byte} {c : Byte} (h : c ≠ padChar ∨ ∃ d ∈ after, d ≠ padChar) :
    c ∈ dataSymbols (before ++ c :: after) := by
  have hget : (before ++ c :: after)[before.length]'(by simp) = c := by simp
  suffices hmem : (before ++ c :: after)[before.length]'(by simp) ∈ dataSymbols (before ++ c :: after) by
    rwa [hget] at hmem
  rcases h with hc | ⟨d, hd, hpad⟩
  · exact getElem_mem_dataSymbols le_rfl _ (by rwa [hget])
  · obtain ⟨k, hk, rfl⟩ := List.getElem_of_mem hd
    have hlen : before.length + (k + 1) < (before ++ c :: after).length := by simpa using hk
    refine getElem_mem_dataSymbols (Nat.le_add_right _ (k + 1)) hlen ?_
    rw [List.getElem_append_right (by omega)]
    simpa using hpad

/-- A string that IBUF holds and that does not decode fails with INVALID_ENCODING (60_exceptions.md R161). -/
theorem decodeText_of_undecodable {secret : List Byte} (hlen : secret.length ≤ 128) (h : Undecodable secret) :
    decodeText secret = .error .invalidEncoding := by
  rcases h with hlong | hpad | ⟨before, after, c, rfl, hforeign, hdata⟩
  · omega
  · exact decodeText_of_no_data (dataSymbols_eq_nil hpad)
  · exact decodeText_of_foreign hlen ⟨c, mem_dataSymbols_of_split hdata, (isAlpha_eq_false_iff c).2 hforeign⟩

/-- B32DEC fails on what the host loads of an undecodable secret. -/
theorem b32dec_fails_of_undecodable {secret : List Byte} (h : Undecodable secret) {s : State}
    (hwf : Memory.wf Config.ibufCap s.ibuf = true) :
    ∃ u f, serve (loadScript secret) s = .next u ∧ Memory.wf Config.ibufCap u.ibuf = true ∧
      exec .b32dec u = .next (fail f u) := by
  rcases Nat.lt_or_ge 128 secret.length with hlong | hlen
  · obtain ⟨m, hserve, hcanonical, -⟩ := serve_loadScript secret hwf
    refine ⟨_, .badLength, hserve, hcanonical, ?_⟩
    rw [exec_b32dec, inputOperand_of_too_long]
    · rfl
    · show 128 < (BitVec.ofNat 8 (min secret.length 255)).toNat
      rw [BitVec.toNat_ofNat]
      omega
  · obtain ⟨u, hloaded⟩ := exists_loaded hwf hlen
    refine ⟨u, .invalidEncoding, hloaded.served, hloaded.canonical, ?_⟩
    rw [exec_b32dec_of_holds hloaded.holds, decodeText_of_undecodable hlen h, finish_error]

/-- getCode of such a secret ends before it looks at the step. -/
theorem getCode_of_undecodable {secret : List Byte} (h : Undecodable secret) {s : State}
    (hwf : Memory.wf Config.ibufCap s.ibuf = true) (step : Int) :
    ∃ t, getCode secret step s = (.error .invalidSecret, t) ∧ Memory.wf Config.ibufCap t.ibuf = true := by
  obtain ⟨u, f, hserve, hcanonical, hexec⟩ := b32dec_fails_of_undecodable h hwf
  exact ⟨fail f u, by rw [getCode_of_exec hserve hexec, fail_failed, if_pos rfl], hcanonical⟩

/-- Settles O52: the failure of B32DEC is InvalidSecret. -/
theorem getCodeOfUndecodableSecret : Obligations.GetCodeOfUndecodableSecret := by
  unfold Obligations.GetCodeOfUndecodableSecret
  intro s secret step hinv h
  obtain ⟨t, hcode, -⟩ := getCode_of_undecodable h hinv.ibufCanonical step
  rw [hcode]

end Sys2Proof.Machine
end

section
/-! SUPPORT. verifyCode (45_environment_totp_engine.md R149, R150): the comparison is equality, and the scan finds a code of
the window. -/

namespace Sys2Proof.Machine

/-! ### The comparison (R150) -/

/-- The gathered differences are zero exactly when every one is. -/
theorem foldl_or_eq_zero_iff (differences : List Byte) (acc : Byte) :
    differences.foldl (· ||| ·) acc = 0x00#8 ↔ acc = 0x00#8 ∧ ∀ d ∈ differences, d = 0x00#8 := by
  induction differences generalizing acc with
  | nil => simp
  | cons d differences ih => simp [ih, BitVec.or_eq_zero_iff, and_assoc]

/-- Strings of one length have no difference exactly when they are equal. -/
theorem zipWith_xor_all_zero_iff {a b : List Byte} (hlen : a.length = b.length) :
    (∀ d ∈ List.zipWith (· ^^^ ·) a b, d = 0x00#8) ↔ a = b := by
  induction a generalizing b with
  | nil => simp [List.length_eq_zero_iff.1 hlen.symm]
  | cons x a ih =>
    cases b with
    | nil => cases hlen
    | cons y b => simp [ih (Nat.succ.inj hlen), BitVec.xor_eq_zero_iff]

theorem constantTimeEq_iff (a b : List Byte) : constantTimeEq a b = true ↔ a = b := by
  rw [constantTimeEq]
  split
  · next hlen => rw [beq_iff_eq, foldl_or_eq_zero_iff, zipWith_xor_all_zero_iff hlen, and_iff_right rfl]
  · next hlen => exact iff_of_false Bool.false_ne_true fun h => hlen (congrArg List.length h)

/-- Settles O53: the law of the comparison. -/
theorem comparisonIsEquality : Obligations.ComparisonIsEquality := by
  unfold Obligations.ComparisonIsEquality
  exact constantTimeEq_iff

/-! ### The scan of a decodable secret (R149) -/

/-- A candidate of six bytes is looked for in the window. -/
theorem verifyCode_of_digits {candidate : List Byte} (h : candidate.length = 6) (secret : List Byte)
    (discrepancy unixTime : Nat) (s : State) :
    verifyCode secret candidate discrepancy unixTime s =
      scanSteps secret candidate (stepWindow (unixTime / 30) discrepancy) s := if_pos h

section Scan

variable {groups : List (BitVec 5)} {p : Nat} (hne : groups ≠ []) (hlen : groups.length + p ≤ 128)

include hne hlen

/-- The scan finds the candidate exactly when it is the code of one of the steps; every getCode leaves a block on which the
next one can run. -/
theorem scanSteps_of_symbols (candidate : List Byte) {steps : List Int}
    (hsteps : ∀ step ∈ steps, 0 ≤ step ∧ step < 2 ^ 64) {s : State}
    (hwf : Memory.wf Config.ibufCap s.ibuf = true) :
    (scanSteps (groups.map alpha ++ List.replicate p padChar) candidate steps s).1 =
      .ok (decide (∃ step ∈ steps, codeOf groups step.toNat = candidate)) := by
  induction steps generalizing s with
  | nil => simp [scanSteps]
  | cons step steps ih =>
    obtain ⟨hstep, hrest⟩ := List.forall_mem_cons.1 hsteps
    obtain ⟨n, rfl⟩ := Int.eq_ofNat_of_zero_le hstep.1
    have hn : n < 2 ^ 64 := by omega
    rw [scanSteps, getCode_of_symbols hne hlen hn hwf]
    simp only [constantTimeEq_iff, List.exists_mem_cons_iff, Int.toNat_natCast]
    by_cases hcode : codeOf groups n = candidate
    · simp [hcode]
    · simp only [hcode, if_false, false_or]
      exact ih hrest rfl

/-- verifyCode accepts the candidate exactly when it is the code of a step of the window; a candidate of the wrong length is
no code. -/
theorem verifyCode_of_symbols (candidate : List Byte) {discrepancy unixTime : Nat}
    (hlow : discrepancy ≤ unixTime / 30) (hhigh : unixTime / 30 + discrepancy < 2 ^ 64) {s : State}
    (hwf : Memory.wf Config.ibufCap s.ibuf = true) :
    ∃ b, (verifyCode (groups.map alpha ++ List.replicate p padChar) candidate discrepancy unixTime s).1 = .ok b ∧
      (b = true ↔ ∃ step : Nat, unixTime / 30 - discrepancy ≤ step ∧ step ≤ unixTime / 30 + discrepancy ∧
        codeOf groups step = candidate) := by
  by_cases hdigits : candidate.length = 6
  · have window {step : Int} (h : step ∈ stepWindow (unixTime / 30) discrepancy) : 0 ≤ step ∧ step < 2 ^ 64 := by
      have := mem_stepWindow.1 h
      omega
    have hscan := scanSteps_of_symbols hne hlen candidate (fun _ => window) hwf
    refine ⟨_, by rw [verifyCode_of_digits hdigits, hscan], ?_⟩
    rw [decide_eq_true_iff]
    constructor
    · rintro ⟨step, hmem, hcode⟩
      have := mem_stepWindow.1 hmem
      exact ⟨step.toNat, by omega, by omega, hcode⟩
    · rintro ⟨step, hfrom, hto, hcode⟩
      exact ⟨step, mem_stepWindow.2 ⟨by omega, by omega⟩, hcode⟩
  · refine ⟨false, by rw [verifyCode_of_wrong_length hdigits], iff_of_false Bool.false_ne_true ?_⟩
    rintro ⟨step, -, -, rfl⟩
    exact hdigits (length_codeOf groups step)

/-- What getCode answers, as a statement about the code. -/
theorem getCode_eq_ok_iff {step : Nat} (hstep : step < 2 ^ 64) {s : State}
    (hwf : Memory.wf Config.ibufCap s.ibuf = true) (candidate : List Byte) :
    (getCode (groups.map alpha ++ List.replicate p padChar) step s).1 = .ok candidate ↔ codeOf groups step = candidate := by
  rw [getCode_of_symbols hne hlen hstep hwf]
  simp only [Except.ok.injEq]

end Scan

/-- Settles O54: the scan of the window, with getCode's answers for the codes. -/
theorem verifyCodeScansWindow : Obligations.VerifyCodeScansWindow := by
  unfold Obligations.VerifyCodeScansWindow
  intro s groups p candidate discrepancy unixTime hinv hne hlen hlow hhigh
  have hwf := hinv.ibufCanonical
  obtain ⟨b, hverify, hb⟩ := verifyCode_of_symbols hne hlen candidate hlow hhigh hwf
  refine ⟨b, hverify, hb.trans ⟨?_, ?_⟩⟩
  · rintro ⟨step, hfrom, hto, hcode⟩
    refine ⟨hcode ▸ length_codeOf groups step, step, hfrom, hto, ?_⟩
    exact (getCode_eq_ok_iff hne hlen (by omega) hwf candidate).2 hcode
  · rintro ⟨-, step, hfrom, hto, hcode⟩
    exact ⟨step, hfrom, hto, (getCode_eq_ok_iff hne hlen (by omega) hwf candidate).1 hcode⟩

/-- The window of discrepancy 1 is three steps. -/
theorem exists_within_one_iff {P : Nat → Prop} {n : Nat} :
    (∃ k, n - 1 ≤ k ∧ k ≤ n + 1 ∧ P k) ↔ P (n - 1) ∨ P n ∨ P (n + 1) := by
  constructor
  · rintro ⟨k, hfrom, hto, h⟩
    obtain rfl | rfl | rfl : k = n - 1 ∨ k = n ∨ k = n + 1 := by omega
    · exact .inl h
    · exact .inr (.inl h)
    · exact .inr (.inr h)
  · rintro (h | h | h)
    · exact ⟨n - 1, le_rfl, by omega, h⟩
    · exact ⟨n, by omega, by omega, h⟩
    · exact ⟨n + 1, by omega, le_rfl, h⟩

/-- Settles O57: the scan of three steps, the current one among them. -/
theorem verifyCodeDefaultWindow : Obligations.VerifyCodeDefaultWindow := by
  unfold Obligations.VerifyCodeDefaultWindow
  intro s groups p unixTime hinv hne hlen hclock hhigh
  have hwf := hinv.ibufCanonical
  have hlow : 1 ≤ unixTime / 30 := by omega
  have scan (candidate : List Byte) := verifyCode_of_symbols hne hlen candidate hlow hhigh hwf
  have code {step : Nat} (hstep : step ≤ unixTime / 30 + 1) (candidate : List Byte) :=
    getCode_eq_ok_iff hne hlen (hstep.trans_lt hhigh) hwf candidate
  refine ⟨fun candidate => ?_, codeOf groups (unixTime / 30), ?_, ?_⟩
  · obtain ⟨b, hverify, hb⟩ := scan candidate
    refine ⟨b, hverify, (hb.trans exists_within_one_iff).trans (Iff.symm ?_)⟩
    exact or_congr (code (by omega) candidate) (or_congr (code (by omega) candidate) (code le_rfl candidate))
  · exact (code (step := unixTime / 30) (Nat.le_succ _) _).2 rfl
  · obtain ⟨b, hverify, hb⟩ := scan (codeOf groups (unixTime / 30))
    obtain rfl : b = true := hb.2 (exists_within_one_iff.2 (.inr (.inl rfl)))
    exact hverify

/-! ### The scan of an undecodable secret (90_conflicts.md C5) -/

theorem scanSteps_of_undecodable {secret : List Byte} (h : Undecodable secret) (candidate : List Byte)
    (steps : List Int) {s : State} (hwf : Memory.wf Config.ibufCap s.ibuf = true) :
    (scanSteps secret candidate steps s).1 = .ok false := by
  induction steps generalizing s with
  | nil => rfl
  | cons step steps ih =>
    obtain ⟨t, hcode, hcanonical⟩ := getCode_of_undecodable h hwf step
    rw [scanSteps, hcode]
    exact ih hcanonical

/-- Settles O55: no step matches, and a candidate of the wrong length is rejected anyway. -/
theorem verifyCodeOfUndecodableSecret : Obligations.VerifyCodeOfUndecodableSecret := by
  unfold Obligations.VerifyCodeOfUndecodableSecret
  intro s secret candidate discrepancy unixTime hinv h
  by_cases hdigits : candidate.length = 6
  · rw [verifyCode_of_digits hdigits]
    exact scanSteps_of_undecodable h candidate _ hinv.ibufCanonical
  · rw [verifyCode_of_wrong_length hdigits]

end Sys2Proof.Machine
end
